-- ==== Sys2Proof/Word.lean ====
section
/-! DEFINITION. The word types of the core. Every register, memory and field value is an unsigned
integer of a fixed width (`00_scope.md` R8); the widths are those of `10_state.md` R20, R24, R30 and of the
fields of `30_encoding.md` R82. -/

namespace Sys2Proof

/-- A byte of memory, and the value of a general register (R20, R34). -/
abbrev Byte := BitVec 8

/-- A 16-bit quantity: an instruction word, `I`, `PC`, a call-stack entry, `fault_info` (R24, R30, R32, R38, R80). -/
abbrev Word := BitVec 16

/-- A 4-bit field: a general-register index (X, Y), a row count (N), or the type nibble (R82). -/
abbrev Nibble := BitVec 4

/-- The 12-bit field NNN (R82), and the loader's address `ld_addr` (R43). -/
abbrev Imm12 := BitVec 12

/-- The two bytes of a word, more significant byte first (R52, R80). -/
def Word.bytes (w : Word) : List Byte := [w.extractLsb' 8 8, w.extractLsb' 0 8]

end Sys2Proof
end

