-- ==== Sys2Proof/Syntax.lean ====
section
/-! DEFINITION. The instructions: one constructor per row of `spec/opcode_table.json`, one row per value of the
type nibble (`30_encoding.md` R88). A constructor carries every bit the type nibble leaves, the ignored ones too
(CLS, R91), so that a word and its instruction determine each other. -/

namespace Sys2Proof

inductive Instr where
  /-- CLS, type 0x0: `0___`, the low 12 bits are ignored (R91, R130). -/
  | cls (low : Imm12)
  /-- JP NNN, type 0x1 (R136). -/
  | jp (nnn : Imm12)
  /-- Type 0x2: an unhandled instruction (R90). -/
  | illegal2 (low : Imm12)
  /-- Type 0x3: an unhandled instruction (R90). -/
  | illegal3 (low : Imm12)
  /-- Type 0x4: an unhandled instruction (R90). -/
  | illegal4 (low : Imm12)
  /-- Type 0x5: an unhandled instruction (R90). -/
  | illegal5 (low : Imm12)
  /-- LD Vx, NN, type 0x6 (R141). -/
  | ldV (x : Nibble) (nn : Byte)
  /-- ADD Vx, NN, type 0x7 (R144). -/
  | addV (x : Nibble) (nn : Byte)
  /-- Type 0x8: an unhandled instruction (R90). -/
  | illegal8 (low : Imm12)
  /-- Type 0x9: an unhandled instruction (R90). -/
  | illegal9 (low : Imm12)
  /-- LD I, NNN, type 0xA (R148). -/
  | ldI (nnn : Imm12)
  /-- Type 0xB: an unhandled instruction (R90). -/
  | illegalB (low : Imm12)
  /-- Type 0xC: an unhandled instruction (R90). -/
  | illegalC (low : Imm12)
  /-- DRW Vx, Vy, N, type 0xD (R150). -/
  | drw (x y n : Nibble)
  /-- Type 0xE: an unhandled instruction (R90). -/
  | illegalE (low : Imm12)
  /-- Type 0xF: an unhandled instruction (R90). -/
  | illegalF (low : Imm12)
  deriving DecidableEq, Repr

/-- The type nibble that selects the instruction (R88). -/
def Instr.opType : Instr → Nibble
  | .cls _ => 0x0#4
  | .jp _ => 0x1#4
  | .illegal2 _ => 0x2#4
  | .illegal3 _ => 0x3#4
  | .illegal4 _ => 0x4#4
  | .illegal5 _ => 0x5#4
  | .ldV _ _ => 0x6#4
  | .addV _ _ => 0x7#4
  | .illegal8 _ => 0x8#4
  | .illegal9 _ => 0x9#4
  | .ldI _ => 0xA#4
  | .illegalB _ => 0xB#4
  | .illegalC _ => 0xC#4
  | .drw _ _ _ => 0xD#4
  | .illegalE _ => 0xE#4
  | .illegalF _ => 0xF#4

/-- Whether the core has an instruction of this type: the six of R88, not the ten of R90. -/
def Instr.handled : Instr → Bool
  | .cls _ => true
  | .jp _ => true
  | .illegal2 _ => false
  | .illegal3 _ => false
  | .illegal4 _ => false
  | .illegal5 _ => false
  | .ldV _ _ => true
  | .addV _ _ => true
  | .illegal8 _ => false
  | .illegal9 _ => false
  | .ldI _ => true
  | .illegalB _ => false
  | .illegalC _ => false
  | .drw _ _ _ => true
  | .illegalE _ => false
  | .illegalF _ => false

end Sys2Proof
end

