-- ==== Sys2Proof/WellFormed.lean ====
section
/-! DEFINITION. Operand ranges. A field of a decoded instruction is in range by its width ("eliminated by
construction", `10_state.md` R22, `60_exceptions.md` R184), so `Instr.wellFormed` holds of every `Instr`; the same
checks have teeth on a source line of the assembler syntax of `30_encoding.md` R94, whose operands are numbers. -/

namespace Sys2Proof

/-- A register index X or Y names one of V0 to VF (R86, R94). -/
def regOk (n : Nat) : Bool := n < 16

/-- A row count N (R85, R94). -/
def rowsOk (n : Nat) : Bool := n < 16

/-- An immediate byte NN, or the operand of DB (R85, R94). -/
def byteOk (n : Nat) : Bool := n < 256

/-- An immediate address NNN (R85, R94). -/
def addrOk (n : Nat) : Bool := n < 4096

/-- Every operand field of a decoded instruction is in the range of R82. -/
def Instr.wellFormed : Instr → Bool
  | .cls low => addrOk low.toNat
  | .jp nnn => addrOk nnn.toNat
  | .illegal2 low => addrOk low.toNat
  | .illegal3 low => addrOk low.toNat
  | .illegal4 low => addrOk low.toNat
  | .illegal5 low => addrOk low.toNat
  | .ldV x nn => regOk x.toNat && byteOk nn.toNat
  | .addV x nn => regOk x.toNat && byteOk nn.toNat
  | .illegal8 low => addrOk low.toNat
  | .illegal9 low => addrOk low.toNat
  | .ldI nnn => addrOk nnn.toNat
  | .illegalB low => addrOk low.toNat
  | .illegalC low => addrOk low.toNat
  | .drw x y n => regOk x.toNat && regOk y.toNat && rowsOk n.toNat
  | .illegalE low => addrOk low.toNat
  | .illegalF low => addrOk low.toNat

/-- A source line of the spec's assembler syntax, its operands not yet checked (R94, D11). -/
inductive Source where
  | cls
  | jp (nnn : Nat)
  | ldV (x nn : Nat)
  | addV (x nn : Nat)
  | ldI (nnn : Nat)
  | drw (x y n : Nat)
  /-- `DB b`: a byte of data, not an instruction. -/
  | db (b : Nat)
  deriving DecidableEq, Repr

/-- The operand ranges of R94's table. -/
def Source.wellFormed : Source → Bool
  | .cls => true
  | .jp nnn => addrOk nnn
  | .ldV x nn => regOk x && byteOk nn
  | .addV x nn => regOk x && byteOk nn
  | .ldI nnn => addrOk nnn
  | .drw x y n => regOk x && regOk y && rowsOk n
  | .db b => byteOk b

end Sys2Proof
end

