-- ==== Sys2Proof/Decode.lean ====
section
/-! DEFINITION. Decoding and encoding (`30_encoding.md`): the fields of R82, dispatch on the type nibble alone
(R88), the encoder written from the same layout (R81), and the assembler of R94. -/

namespace Sys2Proof

/-- The canonical fields, all of them extracted from every word (R82, R83). -/
structure Fields where
  type : Nibble
  x : Nibble
  y : Nibble
  n : Nibble
  nn : Byte
  nnn : Imm12
  deriving DecidableEq, Repr

/-- Field extraction: pure, and total over the 16-bit words (R82, R83, R112). -/
def decodeFields (w : Word) : Fields where
  type := w.extractLsb' 12 4
  x := w.extractLsb' 8 4
  y := w.extractLsb' 4 4
  n := w.extractLsb' 0 4
  nn := w.extractLsb' 0 8
  nnn := w.extractLsb' 0 12

/-- Dispatch: the type alone, bits 15 to 12 of the word, selects the instruction, which takes the fields it uses (R84,
R88, R113). -/
def selectInstr (f : Fields) : Instr :=
  match f.type[3], f.type[2], f.type[1], f.type[0] with
  | false, false, false, false => .cls f.nnn
  | false, false, false, true => .jp f.nnn
  | false, false, true, false => .illegal2 f.nnn
  | false, false, true, true => .illegal3 f.nnn
  | false, true, false, false => .illegal4 f.nnn
  | false, true, false, true => .illegal5 f.nnn
  | false, true, true, false => .ldV f.x f.nn
  | false, true, true, true => .addV f.x f.nn
  | true, false, false, false => .illegal8 f.nnn
  | true, false, false, true => .illegal9 f.nnn
  | true, false, true, false => .ldI f.nnn
  | true, false, true, true => .illegalB f.nnn
  | true, true, false, false => .illegalC f.nnn
  | true, true, false, true => .drw f.x f.y f.n
  | true, true, true, false => .illegalE f.nnn
  | true, true, true, true => .illegalF f.nnn

/-- The instruction a 16-bit word is. Decoding never fails on a word (R83, R88). -/
def decodeWord (w : Word) : Instr := selectInstr (decodeFields w)

/-- Why a list of bytes holds no instruction. -/
inductive DecodeError where
  /-- Fewer than the two bytes every instruction takes (R80). -/
  | truncated
  deriving DecidableEq, Repr

/-- A word assembled big-endian from two consecutive bytes (R52, R80). -/
def assembleWord (hi lo : Byte) : Word := hi ++ lo

/-- The instruction at the head of a list of bytes, and the bytes after it (R80). -/
def decode : List Byte → Except DecodeError (Instr × List Byte)
  | hi :: lo :: rest => .ok (decodeWord (assembleWord hi lo), rest)
  | [_] => .error .truncated
  | [] => .error .truncated

/-- The word of an instruction, from the layout of R81 and the patterns of R88. -/
def encode : Instr → Word
  | .cls low => 0x0#4 ++ low
  | .jp nnn => 0x1#4 ++ nnn
  | .illegal2 low => 0x2#4 ++ low
  | .illegal3 low => 0x3#4 ++ low
  | .illegal4 low => 0x4#4 ++ low
  | .illegal5 low => 0x5#4 ++ low
  | .ldV x nn => (0x6#4 ++ x) ++ nn
  | .addV x nn => (0x7#4 ++ x) ++ nn
  | .illegal8 low => 0x8#4 ++ low
  | .illegal9 low => 0x9#4 ++ low
  | .ldI nnn => 0xA#4 ++ nnn
  | .illegalB low => 0xB#4 ++ low
  | .illegalC low => 0xC#4 ++ low
  | .drw x y n => ((0xD#4 ++ x) ++ y) ++ n
  | .illegalE low => 0xE#4 ++ low
  | .illegalF low => 0xF#4 ++ low

/-- The two bytes of an instruction as memory holds them, more significant byte first (R80). -/
def encodeBytes (i : Instr) : List Byte := (encode i).bytes

/-- The word of an opcode-table row whose bits are `w` in the first `nbits` places, the rest zero. -/
def tableWord (nbits w : Nat) : Word := BitVec.ofNat 16 (w % 2 ^ nbits)

/-- The decoder's answer for the instruction whose bits the opcode table numbers as `w`: its word laid out in
memory order and given to `decode`. -/
def decodeTableWord (nbits w : Nat) : Option Instr :=
  match decode (tableWord nbits w).bytes with
  | .ok (i, _) => some i
  | .error _ => none

/-- The instruction a source line stands for; none for data and for an operand out of range (R94). -/
def Source.toInstr (l : Source) : Option Instr :=
  if l.wellFormed then
    match l with
    | .cls => some (.cls 0x0E0#12)
    | .jp nnn => some (.jp (.ofNat 12 nnn))
    | .ldV x nn => some (.ldV (.ofNat 4 x) (.ofNat 8 nn))
    | .addV x nn => some (.addV (.ofNat 4 x) (.ofNat 8 nn))
    | .ldI nnn => some (.ldI (.ofNat 12 nnn))
    | .drw x y n => some (.drw (.ofNat 4 x) (.ofNat 4 y) (.ofNat 4 n))
    | .db _ => none
  else none

/-- The bytes the assembler emits for a source line, written from the `emits` column of R94; none for an operand
out of range. -/
def Source.assemble (l : Source) : Option (List Byte) :=
  if l.wellFormed then
    match l with
    | .cls => some (Word.bytes 0x00E0#16)
    | .jp nnn => some (Word.bytes (.ofNat 16 (0x1000 + nnn)))
    | .ldV x nn => some (Word.bytes (.ofNat 16 (0x6000 + x * 256 + nn)))
    | .addV x nn => some (Word.bytes (.ofNat 16 (0x7000 + x * 256 + nn)))
    | .ldI nnn => some (Word.bytes (.ofNat 16 (0xA000 + nnn)))
    | .drw x y n => some (Word.bytes (.ofNat 16 (0xD000 + x * 256 + y * 16 + n)))
    | .db b => some [.ofNat 8 b]
  else none

/-- The source line that assembles to an instruction's word. None for an unhandled type, for which R94 has no syntax, and for
a CLS word other than 0x00E0: `CLS` alone would lose its low bits, and a disassembler prints the word beside it
(`disassemble`). -/
def Instr.toSource : Instr → Option Source
  | .cls low => if low = 0x0E0#12 then some .cls else none
  | .jp nnn => some (.jp nnn.toNat)
  | .illegal2 _ => none
  | .illegal3 _ => none
  | .illegal4 _ => none
  | .illegal5 _ => none
  | .ldV x nn => some (.ldV x.toNat nn.toNat)
  | .addV x nn => some (.addV x.toNat nn.toNat)
  | .illegal8 _ => none
  | .illegal9 _ => none
  | .ldI nnn => some (.ldI nnn.toNat)
  | .illegalB _ => none
  | .illegalC _ => none
  | .drw x y n => some (.drw x.toNat y.toNat n.toNat)
  | .illegalE _ => none
  | .illegalF _ => none

/-- A disassembled line: the source line, and the word in a comment where the line alone would lose it
(`CLS ; 0x0NNN`, R94). -/
structure Listing where
  line : Source
  comment : Option Word
  deriving DecidableEq, Repr

/-- What a disassembler prints for an instruction; none for an unhandled type (R94). -/
def disassemble (i : Instr) : Option Listing :=
  match i with
  | .cls low => some { line := .cls, comment := if low = 0x0E0#12 then none else some (encode (.cls low)) }
  | _ => i.toSource.map fun l => { line := l, comment := none }

/-- The word a disassembled line stands for: the commented word where there is one, else what the line emits (R94). -/
def Listing.word (l : Listing) : Option Word :=
  match l.comment with
  | some w => some w
  | none => l.line.toInstr.map encode

/-- The hexadecimal digit of a number below 16. -/
def hexDigit (n : Nat) : String := String.singleton (Nat.digitChar n).toUpper

/-- A number in hexadecimal with its prefix, `k` digits (R8). -/
def hexText (k n : Nat) : String := "0x" ++ String.join ((List.range k).reverse.map fun j => hexDigit (n / 16 ^ j % 16))

/-- The text of a source line in R94's syntax; its spelling of numbers is that of the programs of `95_test_vectors.md`
part 3. -/
def Source.text : Source → String
  | .cls => "CLS"
  | .jp nnn => "JP " ++ hexText 3 nnn
  | .ldV x nn => "LD V" ++ hexDigit x ++ ", " ++ hexText 2 nn
  | .addV x nn => "ADD V" ++ hexDigit x ++ ", " ++ hexText 2 nn
  | .ldI nnn => "LD I, " ++ hexText 3 nnn
  | .drw x y n => "DRW V" ++ hexDigit x ++ ", V" ++ hexDigit y ++ ", " ++ toString n
  | .db b => "DB " ++ hexText 2 b

/-- The text of a disassembled line: `CLS ; 0x0NNN` where the word stands beside the line (R94). -/
def Listing.text (l : Listing) : String :=
  match l.comment with
  | some w => l.line.text ++ " ; " ++ hexText 4 w.toNat
  | none => l.line.text

end Sys2Proof
end

