-- ==== Sys2Proof/Config.lean ====
section
/-! DEFINITION. The implementation parameters of `00_scope.md` R7: what the hardware fixes, and the open ones.
A value the spec leaves open for good is an opaque constant, so no proof can lean on it. -/

namespace Sys2Proof

/-- MEM_SIZE: addresses 0x000 to 0xFFF (R7, R34). -/
abbrev Config.memSize : Nat := 4096

/-- FB_W (R7, R35). -/
abbrev Config.fbWidth : Nat := 64

/-- FB_H (R7, R35). -/
abbrev Config.fbHeight : Nat := 32

/-- SPRITE_W: pixels of a sprite row (R7, R154). -/
abbrev Config.spriteWidth : Nat := 8

/-- RESET_PC, the entry point (R7, R42). -/
abbrev Config.resetPc : Word := 0x200#16

/-- LOAD_BASE, where the first ROM byte lands; 512, not the reference's decimal 200 (R7, C2, D15). -/
abbrev Config.loadBase : Nat := 0x200

/-- MAX_ROM: the longest ROM, 4096 - 512 bytes (R7, R60). -/
abbrev Config.maxRom : Nat := 3584

/-- The default PC advance, one instruction width (R7, R26). -/
abbrev Config.instrStep : Word := 2#16

/-- What a byte of memory that nothing has written reads as: MEM_INIT, which the spec leaves OPEN and for which it
recommends all zero (R42, R231, D4). DESIGN CHOICE, unsafe: `notes/assumptions/1.md`. Any other initial
memory is a state of its own (its bytes are listed in `State.mem`), so a statement over all states, and `bootWith`,
cover every MEM_INIT. -/
def Config.memInit : Byte := 0x00#8

/-- STACK_DEPTH, the call stack's capacity: an OPEN parameter, so it has no value here (R32, D12;
`notes/assumptions/2.md`). -/
opaque Config.stackDepth : Nat

end Sys2Proof
end

