-- ==== Sys2Proof/Machine/State.lean ====
section
/-! DEFINITION. The state of the core (`10_state.md` R41), the reasons a step can stop, and the state after reset
(`10_state.md` R42). Plain data only. -/

namespace Sys2Proof.Machine

/-- R36. The reserved value 3 is never produced, so the type has no such value (U10). -/
inductive RunState where
  | running
  | stopped
  | faulted
  deriving DecidableEq, Repr

/-- R37, R180. -/
inductive FaultCause where
  | none
  /-- `40_instruction_cycle.md` R111. -/
  | fetchOutOfRange
  /-- `30_encoding.md` R90. -/
  | unhandledInstruction
  /-- `44_draw_sprite.md` R153. -/
  | spriteOutOfRange
  deriving DecidableEq, Repr

/-- A grid of Boolean pixels, 32 rows of 64, row first (R10, R35, R41). -/
abbrev Framebuffer := Vector (Vector Bool 64) 32

/-- Memory: the bytes that differ from `Config.memInit`, addresses strictly rising (`Machine/Ops.lean`, `memWf`). -/
abbrev Mem := List Host.Cell

/-- The levels on the core's input signals (R43), which the next step samples. They are inputs of the step, not state of
the core (R41); the MODEL holds them here because its step is a function of the state alone
(`notes/assumptions/3.md`). `clk` carries nothing (R237), and `fb_raddr` is the argument of `fbRdata`. -/
structure Inputs where
  /-- `rst` -/
  rst : Bool
  /-- `step_en` -/
  stepEn : Bool
  /-- `halt_req` -/
  haltReq : Bool
  /-- `ld_we` -/
  ldWe : Bool
  /-- `ld_addr` -/
  ldAddr : Imm12
  /-- `ld_data` -/
  ldData : Byte
  deriving DecidableEq, Repr

/-- The complete architectural state of R41, and the model's `inputs`. -/
structure State where
  /-- V0 to VF (R20). -/
  v : Vector Byte 16
  /-- The index register I (R30). -/
  i : Word
  /-- The program counter (R24). -/
  pc : Word
  /-- The call stack of 16-bit return addresses; no instruction reads or writes it (R32, R33). -/
  stack : List Word
  /-- Memory (R34). -/
  mem : Mem
  /-- The framebuffer (R35). -/
  fb : Framebuffer
  /-- R36. -/
  runState : RunState
  /-- R37. -/
  faultCause : FaultCause
  /-- R38. -/
  faultInfo : Word
  /-- The MODEL's own field: the input signals the next step samples (R43). -/
  inputs : Inputs
  deriving DecidableEq, Repr

/-- A stop of the MODEL. The spec's own faults are no stops: they are NEXT states with `run_state` FAULTED (R187,
`State.raise`). -/
inductive Fault where
  /-- MemRead has no answer outside 0x000 to 0xFFF, so that a forgotten range check shows as a stuck machine and not as a
  wrong byte (R51). Raised by the fetch (`State.fetchWord`) and by DRW (`readBytes`); both check the range first, so no
  step and no instruction ever ends in it. Safe. -/
  | memReadOutOfRange
  deriving DecidableEq, Repr

/-- A refusal of the MODEL. -/
inductive Refusal where
  /-- An instruction that has no meaning yet, raised by `exec`'s arm of that instruction. No arm raises it: every
  instruction has its meaning. Safe. -/
  | notModelled (mnemonic : String)
  deriving DecidableEq, Repr

/-- The input levels when the run starts: `rst` and `halt_req` low (R231), the timing gate open and the loader's port idle
(DESIGN CHOICE, `notes/assumptions/3.md`). -/
def Inputs.run : Inputs where
  rst := false
  stepEn := true
  haltReq := false
  ldWe := false
  ldAddr := 0x000#12
  ldData := 0x00#8

/-- Every pixel off (R42, R130). -/
def allOff : Framebuffer := Vector.replicate 32 (Vector.replicate 64 false)

/-- The machine right after reset (R42), nothing loaded: every register at the value R42's table gives, memory with nothing
listed (MEM_INIT, `notes/assumptions/1.md`). -/
def State.reset : State where
  v := Vector.replicate 16 0x00#8
  i := 0x0000#16
  pc := Config.resetPc
  stack := []
  mem := []
  fb := allOff
  runState := .running
  faultCause := .none
  faultInfo := 0x0000#16
  inputs := Inputs.run

end Sys2Proof.Machine
end

