-- ==== Sys2Proof/Machine/Ops.lean ====
section
/-! DEFINITION. The named operations every meaning is written with: memory, registers, framebuffer pixels, the commit of
the program counter, entering FAULTED (the one exception entry of the core) and reset (its only exit), and what
happens at the boundary before an instruction. -/

namespace Sys2Proof.Machine

/-! ### Memory -/

/-- The byte at an address, listed or not. Only addresses below `Config.memSize` name a byte (`memRead`). -/
def memByte : Mem → Nat → Byte
  | [], _ => Config.memInit
  | (k, b) :: m, a => if k = a then b else memByte m a

/-- `MemRead(a, 1)`: no answer outside 0x000 to 0xFFF, never a wrapped address (R9, R51). -/
def memRead (m : Mem) (a : Nat) : Option Byte :=
  if a < Config.memSize then some (memByte m a) else none

/-- `MemRead(a, 2)`: the big-endian 16-bit value of two consecutive bytes (R9, R52). -/
def memRead2 (m : Mem) (a : Nat) : Option Word :=
  match memRead m a, memRead m (a + 1) with
  | some hi, some lo => some (assembleWord hi lo)
  | _, _ => none

/-- The `n` bytes from address `a`, one single-byte read each (R56, R152). -/
def readBytes (m : Mem) (a : Nat) : Nat → Option (List Byte)
  | 0 => some []
  | n + 1 =>
    match memRead m a, readBytes m (a + 1) n with
    | some b, some bs => some (b :: bs)
    | _, _ => none

/-- Put one byte into the list, in its place; a byte equal to `Config.memInit` is not listed. -/
def memInsert : Mem → Nat → Byte → Mem
  | [], a, b => if b = Config.memInit then [] else [(a, b)]
  | (k, c) :: m, a, b =>
    if a < k then (if b = Config.memInit then (k, c) :: m else (a, b) :: (k, c) :: m)
    else if a = k then (if b = Config.memInit then m else (a, b) :: m)
    else (k, c) :: memInsert m a b

/-- Store one byte. There is no byte outside 0x000 to 0xFFF to store to: the loader's 12-bit address cannot name one (R43),
and no instruction stores (R58). -/
def memWrite (m : Mem) (a : Nat) (b : Byte) : Mem :=
  if a < Config.memSize then memInsert m a b else m

/-- Store consecutive bytes from address `a`. -/
def memWriteBytes (m : Mem) (a : Nat) : List Byte → Mem
  | [] => m
  | b :: bs => memWriteBytes (memWrite m a b) (a + 1) bs

/-- Every listed address is at least `lo`, strictly rising and below `Config.memSize`, and no listed byte is
`Config.memInit`. -/
def memWfFrom : Nat → Mem → Bool
  | _, [] => true
  | lo, (k, b) :: m =>
    decide (lo ≤ k) && decide (k < Config.memSize) && decide (b ≠ Config.memInit) && memWfFrom (k + 1) m

/-- The canonical form of memory. -/
def memWf (m : Mem) : Bool := memWfFrom 0 m

/-! ### Registers -/

/-- `V[x]` (R20, R86). -/
def State.getV (s : State) (x : Nibble) : Byte := s.v[x.toNat]'x.isLt

/-- `V[x] <- b` (R20, R86). No register is hardwired. -/
def State.setV (s : State) (x : Nibble) (b : Byte) : State := { s with v := s.v.set x.toNat b x.isLt }

/-- `I <- w` (R30). -/
def State.setI (s : State) (w : Word) : State := { s with i := w }

/-- `pc <- w` (R24). -/
def State.setPc (s : State) (w : Word) : State := { s with pc := w }

/-! ### The framebuffer -/

/-- `fb[y][x]`. No rule forms a position outside the screen (R67); there, nothing is on. -/
def pixel (fb : Framebuffer) (y x : Nat) : Bool :=
  if h : y < 32 ∧ x < 64 then (fb[y]'h.1)[x]'h.2 else false

/-- `fb[y][x] <- b`. Outside the screen there is no pixel to write (R67). -/
def setPixel (fb : Framebuffer) (y x : Nat) (b : Bool) : Framebuffer :=
  if h : y < 32 ∧ x < 64 then fb.set y ((fb[y]'h.1).set x b h.2) h.1 else fb

/-- Replace the framebuffer. -/
def State.setFb (s : State) (fb : Framebuffer) : State := { s with fb := fb }

/-! ### Completing an instruction, and faulting -/

/-- The commit: the one write of PC of an instruction that completes (R114). -/
def State.commit (s : State) (nextPc : Word) : Host.Outcome State Fault Refusal := .next (s.setPc nextPc)

/-- The default advance, `pc + 2` (R26). The 16-bit sum is the exact one wherever an instruction was fetched, since a
fetch needs `pc <= 0xFFE` (R26, D25). -/
def State.advance (s : State) : Host.Outcome State Fault Refusal := s.commit (s.pc + Config.instrStep)

/-- The state after a fault: the three status registers, and nothing else (R187). -/
def State.enterFaulted (s : State) (cause : FaultCause) (info : Word) : State :=
  { s with runState := .faulted, faultCause := cause, faultInfo := info }

/-- `raise <Fault>(info)`: taking the core's one kind of exception. It is a halt in place, so it answers the FAULTED state,
in which every further step changes nothing (R9, R187, R116). -/
def State.raise (s : State) (cause : FaultCause) (info : Word) : Host.Outcome State Fault Refusal :=
  .next (s.enterFaulted cause info)

/-- The fault of an instruction type the core does not have: `fault_info` is the instruction word (R90, R182). -/
def State.raiseUnhandled (s : State) (instr : Word) : Host.Outcome State Fault Refusal :=
  s.raise .unhandledInstruction instr

/-- Reset: the only way out of FAULTED and STOPPED (R193, R220). Every register takes the value of R42; memory is not
written (R221) and the input signals are the host's. -/
def State.applyReset (s : State) : State := { State.reset with mem := s.mem, inputs := s.inputs }

/-- The halt request is taken (R196). -/
def State.enterStopped (s : State) : State := { s with runState := .stopped }

/-! ### What comes before an instruction -/

/-- The loader's write port, honoured while `rst` is asserted (R43, R230). -/
def State.loaderStore (s : State) : State :=
  if s.inputs.ldWe then { s with mem := memWrite s.mem s.inputs.ldAddr.toNat s.inputs.ldData } else s

/-- What a step does in place of an instruction cycle, in the order of R192; none if an instruction cycle starts.
`rst` asserted: the reset values, the loader's port, nothing executed (R43, R220, R230). STOPPED or FAULTED: nothing, until
reset (R116). `step_en` low: the core waits between instructions (R43, R239). `halt_req` high: STOPPED, before any fetch
(R196). -/
def State.boundary (s : State) : Option State :=
  if s.inputs.rst then some s.applyReset.loaderStore
  else if s.runState ≠ .running then some s
  else if s.inputs.stepEn = false then some s
  else if s.inputs.haltReq then some s.enterStopped
  else none

/-- Whether the two bytes at PC are in memory; the sum is taken without wrap (R111). -/
def State.canFetch (s : State) : Bool := decide (s.pc.toNat + 1 < Config.memSize)

/-- The word at PC, big-endian, with no alignment requirement (R52, R54, R111). -/
def State.fetchWord (s : State) : Option Word := memRead2 s.mem s.pc.toNat

/-- A fetch out of range: `fault_info` is 0 and PC keeps the address (R111, R181). -/
def State.raiseFetch (s : State) : Host.Outcome State Fault Refusal := s.raise .fetchOutOfRange 0x0000#16

/-- `s` made ready to fetch at its very next step: the run state RUNNING, the inputs those of a run, PC at an address a fetch
can use. Where `s` already is so, nothing changes. -/
def State.readyToFetch (s : State) : State :=
  let r := if s.runState = .running then s
    else { s with runState := .running, faultCause := .none, faultInfo := 0x0000#16 }
  let p := if r.canFetch then r else r.setPc Config.resetPc
  { p with inputs := { p.inputs with rst := false, stepEn := true, haltReq := false } }

/-- `s` with the bytes of an instruction word stored where it fetches next. -/
def State.storeAtPc (s : State) (w : Word) : State :=
  { s with mem := memWriteBytes s.mem s.pc.toNat w.bytes }

end Sys2Proof.Machine
end

