-- ==== Sys2Proof/Machine/ClearScreen.lean ====
section
/-! DEFINITION. Clear screen, type 0x0 (`41_clear_screen.md`). -/

namespace Sys2Proof.Machine

/-- CLS: all 2048 pixels off; the low 12 bits are ignored (R91, R130). -/
def execCls (_low : Imm12) (s : State) : Host.Outcome State Fault Refusal := (s.setFb allOff).advance

end Sys2Proof.Machine
end

