-- ==== Sys2Proof/Machine/Flags.lean ====
section
/-! DEFINITION. The core's one flag, the collision flag, which is VF (`10_state.md` R28). There is no carry, zero, sign or
overflow flag (R29), so there is no other flag computation. -/

namespace Sys2Proof.Machine

/-- VF, general register 15 (R23). -/
def vf : Nibble := 0xF#4

/-- The 8-bit value of the collision flag: 1 or 0 (R28, R158). -/
def collisionByte (collision : Bool) : Byte := if collision then 0x01#8 else 0x00#8

/-- Accumulate a collision: a targeted pixel that was on before it is toggled (R157). -/
def accumulate (collision wasOn : Bool) : Bool := collision || wasOn

/-- The write of VF by a draw that completes (R158). -/
def State.setCollision (s : State) (collision : Bool) : State := s.setV vf (collisionByte collision)

end Sys2Proof.Machine
end

