-- ==== Sys2Proof/Machine/Operands.lean ====
section
/-! DEFINITION. Operand forms (`30_encoding.md` section 2): the immediates, all unsigned, used as they stand (R85), and the
operands of the draw instruction (`44_draw_sprite.md` R151 to R154). -/

namespace Sys2Proof.Machine

/-- `zext_16(NNN)`: the 16-bit value written to PC or to I (R85). -/
def zextImm (nnn : Imm12) : Word := nnn.setWidth 16

/-- The 8-bit add of ADD Vx, NN: wraps modulo 256 (R144, R146). -/
def addByte (a b : Byte) : Byte := a + b

/-- `startx = V[X] mod 64`, that is `V[X][5:0]` (R151). -/
def startColumn (vx : Byte) : BitVec 6 := vx.extractLsb' 0 6

/-- `starty = V[Y] mod 32`, that is `V[Y][4:0]` (R151). -/
def startRow (vy : Byte) : BitVec 5 := vy.extractLsb' 0 5

/-- The range check of the sprite region `[I, I+N)`: `I + N <= 4096`, the sum taken without wrap, on all N rows (R153). -/
def spriteInRange (i : Word) (n : Nibble) : Bool := decide (i.toNat + n.toNat ≤ Config.memSize)

/-- The sprite: row r is the byte at `I + r` (R152). -/
def readSprite (m : Mem) (i : Word) (n : Nibble) : Option (List Byte) := readBytes m i.toNat n.toNat

/-- Effective width, `min(64 - startx, 8)` (R154). -/
def effectiveWidth (startx : BitVec 6) : Nat := min (Config.fbWidth - startx.toNat) Config.spriteWidth

/-- Effective height, `min(32 - starty, rows)` (R154). -/
def effectiveHeight (starty : BitVec 5) (rows : Nat) : Nat := min (Config.fbHeight - starty.toNat) rows

/-- Column `c` of a sprite row is bit `7 - c` of its byte (R155). -/
def spriteBit (bits : Byte) (c : Nat) : Bool := bits.getLsbD (7 - c)

end Sys2Proof.Machine
end

