-- ==== Sys2Proof/Machine/Blit.lean ====
section
/-! DEFINITION. The XOR-blit engine (`44_draw_sprite.md` R154 to R157, R161) as the loops of R150 over rows and columns,
and the pointwise form of R159 beside it. The origin ports are 6 and 5 bits wide, so an origin off the screen cannot
be written (R151, R161). -/

namespace Sys2Proof.Machine

/-- One pixel of the inner loop: a 1 bit toggles its target and collides if the target was on; a 0 bit does nothing
(R156, R157). -/
def blitPixel (startx : BitVec 6) (starty : BitVec 5) (bits : Byte) (r : Nat) (acc : Framebuffer × Bool) (c : Nat) :
    Framebuffer × Bool :=
  if spriteBit bits c then
    (setPixel acc.1 (starty.toNat + r) (startx.toNat + c) (!pixel acc.1 (starty.toNat + r) (startx.toNat + c)),
      accumulate acc.2 (pixel acc.1 (starty.toNat + r) (startx.toNat + c)))
  else acc

/-- One row: its columns inside the effective width (R154). -/
def blitRow (startx : BitVec 6) (starty : BitVec 5) (sprite : List Byte) (acc : Framebuffer × Bool) (r : Nat) :
    Framebuffer × Bool :=
  (List.range (effectiveWidth startx)).foldl (blitPixel startx starty (sprite.getD r 0x00#8) r) acc

/-- The blit: the rows inside the effective height; the framebuffer after it and the collision result (R150, R161). -/
def blit (startx : BitVec 6) (starty : BitVec 5) (sprite : List Byte) (fb : Framebuffer) : Framebuffer × Bool :=
  (List.range (effectiveHeight starty sprite.length)).foldl (blitRow startx starty sprite) (fb, false)

/-- R159's `hit(y, x)`: the pixel lies in the clipped rectangle and its sprite bit is 1. -/
def hit (startx : BitVec 6) (starty : BitVec 5) (sprite : List Byte) (y x : Nat) : Bool :=
  decide (starty.toNat ≤ y ∧ y < starty.toNat + effectiveHeight starty sprite.length
    ∧ startx.toNat ≤ x ∧ x < startx.toNat + effectiveWidth startx)
  && spriteBit (sprite.getD (y - starty.toNat) 0x00#8) (x - startx.toNat)

end Sys2Proof.Machine
end

