-- ==== Sys2Proof/Machine/DrawSprite.lean ====
section
/-! DEFINITION. Draw sprite, type 0xD (`44_draw_sprite.md`). -/

namespace Sys2Proof.Machine

/-- The effect of a draw whose sprite has been read: the blit, then VF, which is written last (R150, R158). The
coordinates are those the registers hold before the instruction. -/
def State.drawn (s : State) (x y : Nibble) (sprite : List Byte) : State :=
  let result := blit (startColumn (s.getV x)) (startRow (s.getV y)) sprite s.fb
  (s.setFb result.1).setCollision result.2

/-- DRW Vx, Vy, N: the range check on all N rows comes before anything is read or written (R150, R153). -/
def execDrw (x y n : Nibble) (s : State) : Host.Outcome State Fault Refusal :=
  if spriteInRange s.i n then
    match readSprite s.mem s.i n with
    | some sprite => (s.drawn x y sprite).advance
    | none => .fault .memReadOutOfRange
  else s.raise .spriteOutOfRange (encode (.drw x y n))

end Sys2Proof.Machine
end

