-- ==== Sys2Proof/Machine/Jump.lean ====
section
/-! DEFINITION. Jump, type 0x1 (`42_jump.md`). -/

namespace Sys2Proof.Machine

/-- JP NNN: PC takes exactly NNN, with no default advance and no check of the target (R136). -/
def execJp (nnn : Imm12) (s : State) : Host.Outcome State Fault Refusal := s.commit (zextImm nnn)

end Sys2Proof.Machine
end

