-- ==== Sys2Proof/Machine/RegisterImmediate.lean ====
section
/-! DEFINITION. The register-immediate instructions, types 0x6, 0x7 and 0xA (`43_register_immediate.md`). -/

namespace Sys2Proof.Machine

/-- LD Vx, NN (R141). -/
def execLdV (x : Nibble) (nn : Byte) (s : State) : Host.Outcome State Fault Refusal := (s.setV x nn).advance

/-- ADD Vx, NN: wraps modulo 256; the carry is recorded nowhere (R144, R147). -/
def execAddV (x : Nibble) (nn : Byte) (s : State) : Host.Outcome State Fault Refusal :=
  (s.setV x (addByte (s.getV x) nn)).advance

/-- LD I, NNN (R148). -/
def execLdI (nnn : Imm12) (s : State) : Host.Outcome State Fault Refusal := (s.setI (zextImm nnn)).advance

end Sys2Proof.Machine
end

