-- ==== Sys2Proof/Machine/Unhandled.lean ====
section
/-! DEFINITION. The ten instruction types the core does not have (`30_encoding.md` R90, `60_exceptions.md` R182): each raises
UNHANDLED_INSTRUCTION with the instruction word, before any state changes. -/

namespace Sys2Proof.Machine

/-- Type 0x2: UNHANDLED_INSTRUCTION (R90). -/
def execIllegal2 (low : Imm12) (s : State) : Host.Outcome State Fault Refusal :=
  s.raiseUnhandled (encode (.illegal2 low))

/-- Type 0x3: UNHANDLED_INSTRUCTION (R90). -/
def execIllegal3 (low : Imm12) (s : State) : Host.Outcome State Fault Refusal :=
  s.raiseUnhandled (encode (.illegal3 low))

/-- Type 0x4: UNHANDLED_INSTRUCTION (R90). -/
def execIllegal4 (low : Imm12) (s : State) : Host.Outcome State Fault Refusal :=
  s.raiseUnhandled (encode (.illegal4 low))

/-- Type 0x5: UNHANDLED_INSTRUCTION (R90). -/
def execIllegal5 (low : Imm12) (s : State) : Host.Outcome State Fault Refusal :=
  s.raiseUnhandled (encode (.illegal5 low))

/-- Type 0x8: UNHANDLED_INSTRUCTION (R90). -/
def execIllegal8 (low : Imm12) (s : State) : Host.Outcome State Fault Refusal :=
  s.raiseUnhandled (encode (.illegal8 low))

/-- Type 0x9: UNHANDLED_INSTRUCTION (R90). -/
def execIllegal9 (low : Imm12) (s : State) : Host.Outcome State Fault Refusal :=
  s.raiseUnhandled (encode (.illegal9 low))

/-- Type 0xB: UNHANDLED_INSTRUCTION (R90). -/
def execIllegalB (low : Imm12) (s : State) : Host.Outcome State Fault Refusal :=
  s.raiseUnhandled (encode (.illegalB low))

/-- Type 0xC: UNHANDLED_INSTRUCTION (R90). -/
def execIllegalC (low : Imm12) (s : State) : Host.Outcome State Fault Refusal :=
  s.raiseUnhandled (encode (.illegalC low))

/-- Type 0xE: UNHANDLED_INSTRUCTION (R90). -/
def execIllegalE (low : Imm12) (s : State) : Host.Outcome State Fault Refusal :=
  s.raiseUnhandled (encode (.illegalE low))

/-- Type 0xF: UNHANDLED_INSTRUCTION (R90). -/
def execIllegalF (low : Imm12) (s : State) : Host.Outcome State Fault Refusal :=
  s.raiseUnhandled (encode (.illegalF low))

end Sys2Proof.Machine
end

