-- ==== Sys2Proof/Machine/Dispatch.lean ====
section
/-! DEFINITION. Dispatch: one arm per instruction (`40_instruction_cycle.md` R113). -/

namespace Sys2Proof.Machine

-- There is no default arm: the ten types without an instruction have their own meaning, which is to fault (R90, R113).
def exec (i : Instr) (s : State) : Host.Outcome State Fault Refusal :=
  match i with
  | .cls low => Sys2Proof.Machine.execCls low s
  | .jp nnn => Sys2Proof.Machine.execJp nnn s
  | .illegal2 low => Sys2Proof.Machine.execIllegal2 low s
  | .illegal3 low => Sys2Proof.Machine.execIllegal3 low s
  | .illegal4 low => Sys2Proof.Machine.execIllegal4 low s
  | .illegal5 low => Sys2Proof.Machine.execIllegal5 low s
  | .ldV x nn => Sys2Proof.Machine.execLdV x nn s
  | .addV x nn => Sys2Proof.Machine.execAddV x nn s
  | .illegal8 low => Sys2Proof.Machine.execIllegal8 low s
  | .illegal9 low => Sys2Proof.Machine.execIllegal9 low s
  | .ldI nnn => Sys2Proof.Machine.execLdI nnn s
  | .illegalB low => Sys2Proof.Machine.execIllegalB low s
  | .illegalC low => Sys2Proof.Machine.execIllegalC low s
  | .drw x y n => Sys2Proof.Machine.execDrw x y n s
  | .illegalE low => Sys2Proof.Machine.execIllegalE low s
  | .illegalF low => Sys2Proof.Machine.execIllegalF low s

end Sys2Proof.Machine
end

