-- ==== Sys2Proof/Machine/Step.lean ====
section
/-! DEFINITION. One step of the core (`40_instruction_cycle.md` R110), and an instruction placed where the next step
fetches. -/

namespace Sys2Proof.Machine

/-- The instruction cycle: fetch, decode, dispatch and execute, commit (R110). -/
def cycle (s : State) : Host.Outcome State Fault Refusal :=
  if s.canFetch then
    match s.fetchWord with
    | some w => exec (decodeWord w) s
    | none => .fault .memReadOutOfRange
  else s.raiseFetch

/-- One step: what the host's signals and the run state make of it, else one instruction cycle (R110, R116, R192). -/
def step (s : State) : Host.Outcome State Fault Refusal :=
  match s.boundary with
  | some t => .next t
  | none => cycle s

/-- `s` with the table row's instruction stored where `step` fetches next, so that the very next step runs it
(`notes/assumptions/5.md`). -/
def State.withFetchWord (s : State) (nbits w : Nat) : State := s.readyToFetch.storeAtPc (tableWord nbits w)

end Sys2Proof.Machine
end

