-- ==== Sys2Proof/Machine/Moves.lean ====
section
/-! DEFINITION. The host's side (`70_reset_and_hazards.md` R229 to R231, R239; `10_state.md` R43): its moves as settings of the
input signals, the output signals it reads, the ROM load contract, and runs under a stream of inputs. -/

namespace Sys2Proof.Machine

/-- The input signals driven to given levels. -/
def State.withInputs (s : State) (p : Inputs) : State := { s with inputs := p }

/-- The seven moves of R239's table. -/
inductive HostMove where
  | reset
  | load (addr : Imm12) (data : Byte)
  | run
  | pace (enable : Bool)
  | readFramebuffer
  | requestHalt
  | readStatus
  deriving DecidableEq, Repr

/-- What a move does to the signals. `reset` asserts `rst`, `run` releases it with `halt_req` low (R231); `load` drives the
loader's port, which the core honours only while `rst` is asserted (R230); a read has no effect on the core. -/
def HostMove.drive (p : Inputs) : HostMove → Inputs
  | .reset => { p with rst := true, ldWe := false }
  | .load addr data => { p with ldWe := true, ldAddr := addr, ldData := data }
  | .run => { p with rst := false, haltReq := false, ldWe := false }
  | .pace enable => { p with stepEn := enable }
  | .readFramebuffer => p
  | .requestHalt => { p with haltReq := true }
  | .readStatus => p

/-- A move of the host. It acts between instructions, and reaches nothing but the input signals (R13, R239). -/
def HostMove.apply (m : HostMove) (s : State) : State := s.withInputs (m.drive s.inputs)

/-! ### Output signals -/

/-- The renderer's read port: `fb[fb_raddr[10:6]][fb_raddr[5:0]]` (R43, D26). -/
def fbRdata (s : State) (raddr : BitVec 11) : Bool :=
  pixel s.fb (raddr.extractLsb' 6 5).toNat (raddr.extractLsb' 0 6).toNat

/-- `run_state[1:0]` (R36). -/
def RunState.code : RunState → BitVec 2
  | .running => 0#2
  | .stopped => 1#2
  | .faulted => 2#2

/-- `fault_cause[1:0]` (R37, R180). -/
def FaultCause.code : FaultCause → BitVec 2
  | .none => 0#2
  | .fetchOutOfRange => 1#2
  | .unhandledInstruction => 2#2
  | .spriteOutOfRange => 3#2

/-- The status registers as the host reads them (R43, R239). -/
structure StatusPorts where
  runState : BitVec 2
  faultCause : BitVec 2
  faultInfo : Word
  deriving DecidableEq, Repr

/-- The status registers' levels on their ports (R36 to R38, R43). -/
def statusPorts (s : State) : StatusPorts where
  runState := s.runState.code
  faultCause := s.faultCause.code
  faultInfo := s.faultInfo

/-! ### Runs under a stream of inputs -/

/-- The step of R117, whose inputs are arguments. -/
def stepWith (p : Inputs) (s : State) : Host.Outcome State Fault Refusal := step (s.withInputs p)

/-- One step for each setting of the inputs, in order. -/
def runWith : List Inputs → State → Host.Outcome State Fault Refusal
  | [], s => .next s
  | p :: ps, s =>
    match stepWith p s with
    | .next t => runWith ps t
    | .fault r => .fault r
    | .refused r => .refused r

/-! ### Boot -/

/-- The state a run starts in: ROM bytes over an initial memory `mem0`, which is MEM_INIT where the ROM does not reach (R229,
R231). None for a ROM longer than MAX_ROM: "a fatal condition for the loader, not the engine" (R60). -/
def bootWith (mem0 : Mem) (rom : List Byte) : Option State :=
  if rom.length ≤ Config.maxRom then some { State.reset with mem := memWriteBytes mem0 Config.loadBase rom } else none

/-- The inputs of one store through the loader's port while `rst` is asserted (R43, R230). -/
def loadInputs (addr : Nat) (b : Byte) : Inputs :=
  { Inputs.run with rst := true, ldWe := true, ldAddr := .ofNat 12 addr, ldData := b }

/-- The inputs of consecutive stores from an address. -/
def loadAllInputs (addr : Nat) : List Byte → List Inputs
  | [] => []
  | b :: bs => loadInputs addr b :: loadAllInputs (addr + 1) bs

/-- The boot order of R231, steps (1) and (2): assert `rst`, then write the ROM from LOAD_BASE upward. -/
def bootInputs (rom : List Byte) : List Inputs :=
  { Inputs.run with rst := true } :: loadAllInputs Config.loadBase rom

end Sys2Proof.Machine
end

