-- ==== Sys2Proof/Safety.lean ====
section
/-! DEFINITION. What claims are stated in: the invariants of `40_instruction_cycle.md` R118, the end of a run
(`70_reset_and_hazards.md` R238), and a safe state (`60_exceptions.md` R189). -/

namespace Sys2Proof.Machine

/-- What the status registers can read, by the tables of R36 to R38 and R180: a cause exactly in FAULTED, and the information
that goes with it. -/
structure State.StatusOk (s : State) : Prop where
  /-- `fault_cause` NONE and `fault_info` 0 while RUNNING or STOPPED (R37, R118). -/
  quiet : s.runState ≠ .faulted → s.faultCause = .none ∧ s.faultInfo = 0x0000#16
  /-- FAULTED has a cause (R180). -/
  named : s.runState = .faulted → s.faultCause ≠ .none
  /-- A fetch fault records 0, and PC holds the address that could not be fetched (R180, R181). -/
  fetch : s.faultCause = .fetchOutOfRange → s.faultInfo = 0x0000#16 ∧ s.canFetch = false
  /-- An unhandled instruction records its word (R180, R182). -/
  unhandled : s.faultCause = .unhandledInstruction → (decodeWord s.faultInfo).handled = false
  /-- A sprite fault records the word of a DRW whose rows do not fit (R153, R180). -/
  sprite : s.faultCause = .spriteOutOfRange →
    ∃ x y n, s.faultInfo = encode (.drw x y n) ∧ spriteInRange s.i n = false

/-- The invariants of R118 (a), (b), (d) and (f), and the canonical form of memory. -/
structure State.Inv (s : State) : Prop where
  /-- R27, R118 (a). -/
  pcLe : s.pc.toNat ≤ 0x1000
  /-- R31, R118 (b). -/
  iLe : s.i.toNat ≤ 0x0FFF
  /-- R33, R118 (d). -/
  stackEmpty : s.stack = []
  /-- The MODEL's: memory is in canonical form. -/
  memCanonical : memWf s.mem = true
  /-- R118 (f), and the tables of R36 to R38. -/
  statusOk : s.StatusOk

/-- The stack is within its capacity (R41). -/
def State.StackFits (s : State) : Prop := s.stack.length ≤ Config.stackDepth

/-- A jump to its own address: the core is RUNNING and the word at PC is `JP pc` (R119, R238 item 3). -/
def State.quiescent (s : State) : Bool :=
  decide (s.runState = .running) && s.canFetch &&
    decide (∃ w ∈ s.fetchWord, encode (.jp (s.pc.setWidth 12)) = w)

/-- How a run ended (R238). -/
inductive RunEnd where
  | faulted
  | stopped
  /-- By convention: the core keeps stepping, and no state changes (D18). -/
  | quiescent
  deriving DecidableEq, Repr

/-- The end of a run that `s` shows, if any (R238). -/
def runEnd (s : State) : Option RunEnd :=
  match s.runState with
  | .faulted => some .faulted
  | .stopped => some .stopped
  | .running => if s.quiescent then some .quiescent else none

/-- An instruction cycle starts at the next step: RUNNING, `rst` and `halt_req` low, `step_en` high (R43, R110, R196). -/
structure State.Ready (s : State) : Prop where
  rstLow : s.inputs.rst = false
  running : s.runState = .running
  stepEnHigh : s.inputs.stepEn = true
  haltReqLow : s.inputs.haltReq = false

/-- What no instruction that completes changes: the stack (R33), every byte of memory (R58), the status registers (R39),
and the input signals, which are the host's. -/
structure State.Kept (s t : State) : Prop where
  stack : t.stack = s.stack
  memory : ∀ a, memRead t.mem a = memRead s.mem a
  runState : t.runState = s.runState
  faultCause : t.faultCause = s.faultCause
  faultInfo : t.faultInfo = s.faultInfo
  inputs : t.inputs = s.inputs

/-- FAULTED with a cause and its information, and nothing else changed (R115, R187). -/
structure State.FaultedFrom (s t : State) (cause : FaultCause) (info : Word) : Prop where
  runState : t.runState = .faulted
  faultCause : t.faultCause = cause
  faultInfo : t.faultInfo = info
  v : ∀ j, t.getV j = s.getV j
  i : t.i = s.i
  pc : t.pc = s.pc
  stack : t.stack = s.stack
  memory : ∀ a, memRead t.mem a = memRead s.mem a
  fb : ∀ y x, pixel t.fb y x = pixel s.fb y x
  inputs : t.inputs = s.inputs

/-- R159's `hit(y, x)` of a DRW, in the spec's arithmetic: `startx = V[X] mod 64`, `starty = V[Y] mod 32`, the clipped
rectangle, and bit `7 - (x - startx)` of `mem[I + (y - starty)]`. -/
def drawHit (s : State) (vx vy : Nibble) (n : Nibble) (y x : Nat) : Bool :=
  let startx := (s.getV vx).toNat % 64
  let starty := (s.getV vy).toNat % 32
  decide (starty ≤ y ∧ y < starty + min (32 - starty) n.toNat ∧ startx ≤ x ∧ x < startx + min (64 - startx) 8)
  && (memByte s.mem (s.i.toNat + (y - starty))).getLsbD (7 - (x - startx))

/-- How many positions of the 32 by 64 grid a predicate of row and column holds at (R10, R160 (d)). -/
def countPixels (p : Nat → Nat → Bool) : Nat := ((List.range 32).map fun y => (List.range 64).countP (p y)).sum

/-- A state of a run that has not gone wrong: "the run never enters FAULTED" (R189). -/
def State.Safe (s : State) : Prop := s.runState ≠ .faulted

end Sys2Proof.Machine
end

