-- ==== Sys2Proof/Certificates/Slice0/Obligations.lean ====
section
/-! DEFINITION. The statements for the provers, from the numbered rules of `spec/`. -/

open Sys2Proof Sys2Proof.Machine

/-- Decode after encode is the identity, on words and on bytes (sections 1 and 3 of `30_encoding.md`). -/
def Obligations.DecodeOfEncodeIsTheInstruction : Prop :=
  ∀ (i : Instr) (rest : List Byte), decodeWord (encode i) = i ∧ decode (encodeBytes i ++ rest) = .ok (i, rest)

/-- Encode after decode is the identity; decode is total over the words (R83). -/
def Obligations.EncodeOfDecodeIsTheWord : Prop :=
  (∀ w : Word, encode (decodeWord w) = w) ∧
  ∀ hi lo : Byte, ∃ i, decode [hi, lo] = .ok (i, []) ∧ encodeBytes i = [hi, lo]

/-- R82: the fields as arithmetic on the word. -/
def Obligations.FieldsAreArithmeticOnTheWord : Prop :=
  ∀ w : Word,
    let f := decodeFields w
    f.type.toNat = w.toNat / 4096 ∧ f.x.toNat = w.toNat / 256 % 16 ∧ f.y.toNat = w.toNat / 16 % 16 ∧
    f.n.toNat = w.toNat % 16 ∧ f.nn.toNat = w.toNat % 256 ∧ f.nnn.toNat = w.toNat % 4096 ∧
    f.nn.toNat = f.y.toNat * 16 + f.n.toNat ∧ f.nnn.toNat = f.x.toNat * 256 + f.nn.toNat

/-- R88: the complete map of the sixteen type values. -/
def Obligations.WordSelectsItsRowByMatchAndMask : Prop :=
  ∀ w : Word,
    (w &&& 0xF000#16 = 0x0000#16 ↔ decodeWord w = .cls (w.extractLsb' 0 12)) ∧
    (w &&& 0xF000#16 = 0x1000#16 ↔ decodeWord w = .jp (w.extractLsb' 0 12)) ∧
    (w &&& 0xF000#16 = 0x2000#16 ↔ decodeWord w = .illegal2 (w.extractLsb' 0 12)) ∧
    (w &&& 0xF000#16 = 0x3000#16 ↔ decodeWord w = .illegal3 (w.extractLsb' 0 12)) ∧
    (w &&& 0xF000#16 = 0x4000#16 ↔ decodeWord w = .illegal4 (w.extractLsb' 0 12)) ∧
    (w &&& 0xF000#16 = 0x5000#16 ↔ decodeWord w = .illegal5 (w.extractLsb' 0 12)) ∧
    (w &&& 0xF000#16 = 0x6000#16 ↔ decodeWord w = .ldV (w.extractLsb' 8 4) (w.extractLsb' 0 8)) ∧
    (w &&& 0xF000#16 = 0x7000#16 ↔ decodeWord w = .addV (w.extractLsb' 8 4) (w.extractLsb' 0 8)) ∧
    (w &&& 0xF000#16 = 0x8000#16 ↔ decodeWord w = .illegal8 (w.extractLsb' 0 12)) ∧
    (w &&& 0xF000#16 = 0x9000#16 ↔ decodeWord w = .illegal9 (w.extractLsb' 0 12)) ∧
    (w &&& 0xF000#16 = 0xA000#16 ↔ decodeWord w = .ldI (w.extractLsb' 0 12)) ∧
    (w &&& 0xF000#16 = 0xB000#16 ↔ decodeWord w = .illegalB (w.extractLsb' 0 12)) ∧
    (w &&& 0xF000#16 = 0xC000#16 ↔ decodeWord w = .illegalC (w.extractLsb' 0 12)) ∧
    (w &&& 0xF000#16 = 0xD000#16 ↔ decodeWord w = .drw (w.extractLsb' 8 4) (w.extractLsb' 4 4) (w.extractLsb' 0 4)) ∧
    (w &&& 0xF000#16 = 0xE000#16 ↔ decodeWord w = .illegalE (w.extractLsb' 0 12)) ∧
    (w &&& 0xF000#16 = 0xF000#16 ↔ decodeWord w = .illegalF (w.extractLsb' 0 12))

/-- R87 and the decode vectors E1 to E9. -/
def Obligations.DocumentWordsDecodeAsListed : Prop :=
  decodeFields 0xD123#16 = { type := 0xD#4, x := 0x1#4, y := 0x2#4, n := 0x3#4, nn := 0x23#8, nnn := 0x123#12 } ∧
  decodeWord 0xD123#16 = .drw 0x1#4 0x2#4 0x3#4 ∧ decodeWord 0x1234#16 = .jp 0x234#12 ∧
  decodeWord 0x6F01#16 = .ldV 0xF#4 0x01#8 ∧ decodeWord 0x7A05#16 = .addV 0xA#4 0x05#8 ∧
  decodeWord 0xA2F0#16 = .ldI 0x2F0#12 ∧ decodeWord 0x00E0#16 = .cls 0x0E0#12 ∧
  decodeWord 0x0FFF#16 = .cls 0xFFF#12 ∧ decodeWord 0xF00A#16 = .illegalF 0x00A#12

/-- R22 and R86: X and Y come from 4-bit fields, so every value names a register and none is out of range; the ranges are those of
R94. -/
def Obligations.OperandsAreInRangeByConstruction : Prop :=
  ∀ w : Word,
    (∀ (x : Nibble) (nn : Byte), decodeWord w = .ldV x nn ↔ w.toNat = 0x6000 + x.toNat * 256 + nn.toNat) ∧
    (∀ (x : Nibble) (nn : Byte), decodeWord w = .addV x nn ↔ w.toNat = 0x7000 + x.toNat * 256 + nn.toNat) ∧
    (∀ x y n : Nibble, decodeWord w = .drw x y n ↔ w.toNat = 0xD000 + x.toNat * 256 + y.toNat * 16 + n.toNat) ∧
    ∀ l : Source, (decodeWord w).toSource = some l → l.wellFormed = true ∧
      l.assemble = some [.ofNat 8 (w.toNat / 256), .ofNat 8 (w.toNat % 256)]

/-- R94: the assembler syntax and the disassembler's round trip. -/
def Obligations.AssemblerEmitsTheEncodedWord : Prop :=
  (∀ nnn, nnn < 4096 → ∃ i, (Source.jp nnn).toInstr = some i ∧ (encode i).toNat = 0x1000 + nnn) ∧
  (∀ x nn, x < 16 → nn < 256 → ∃ i, (Source.ldV x nn).toInstr = some i ∧ (encode i).toNat = 0x6000 + x * 256 + nn) ∧
  (∀ x nn, x < 16 → nn < 256 → ∃ i, (Source.addV x nn).toInstr = some i ∧ (encode i).toNat = 0x7000 + x * 256 + nn) ∧
  (∀ nnn, nnn < 4096 → ∃ i, (Source.ldI nnn).toInstr = some i ∧ (encode i).toNat = 0xA000 + nnn) ∧
  (∀ x y n, x < 16 → y < 16 → n < 16 →
    ∃ i, (Source.drw x y n).toInstr = some i ∧ (encode i).toNat = 0xD000 + x * 256 + y * 16 + n) ∧
  (∃ i, Source.cls.toInstr = some i ∧ encode i = 0x00E0#16) ∧
  (∀ l i, Source.toInstr l = some i → l.assemble = some (encodeBytes i)) ∧
  (∀ b, b < 256 → (Source.db b).assemble = some [BitVec.ofNat 8 b]) ∧
  (∀ l, Source.wellFormed l = false → l.toInstr = none ∧ l.assemble = none) ∧
  (∀ i, i.handled = true → ∃ l, disassemble i = some l ∧ l.word = some (encode i)) ∧
  (∀ low, low ≠ 0x0E0#12 →
    ∃ l, disassemble (.cls low) = some l ∧ l.text = "CLS ; " ++ hexText 4 (encode (.cls low)).toNat)

/-- R110: fetch, decode, dispatch. The commit of PC is inside `exec`. -/
def Obligations.StepRunsTheDecodedInstruction : Prop :=
  ∀ (s : State) (hi lo : Byte) (i : Instr), s.Ready →
    memRead s.mem s.pc.toNat = some hi → memRead s.mem (s.pc.toNat + 1) = some lo →
    decode [hi, lo] = .ok (i, []) → i.wellFormed = true → step s = exec i s

/-- R111: the fetch. -/
def Obligations.FetchIsBigEndianOrFaults : Prop :=
  ∀ s : State, s.Ready →
    (s.pc.toNat + 1 < 4096 → ∃ hi lo w, memRead s.mem s.pc.toNat = some hi ∧ memRead s.mem (s.pc.toNat + 1) = some lo ∧
      s.fetchWord = some w ∧ w.toNat = hi.toNat * 256 + lo.toNat ∧ step s = exec (decodeWord w) s) ∧
    (4096 ≤ s.pc.toNat + 1 → ∃ t, step s = .next t ∧ s.FaultedFrom t .fetchOutOfRange 0x0000#16)

/-- R117: exactly one of three outcomes. MemRead's missing answers (R51) are never met. R117 defines the step only while RUNNING: that
a faulted, a halted or a reset core's step is a next state too is the model's reading (DEDUCED, `notes/assumptions/6.md`). -/
def Obligations.StepAlwaysAnswersNext : Prop :=
  (∀ (i : Instr) (s : State), ∃ t, exec i s = .next t) ∧
  ∀ s : State, ∃ t, step s = .next t ∧
    (s.inputs.rst = false → t.runState = s.runState ∨
      (s.runState = .running ∧ s.inputs.haltReq = true ∧ t.runState = .stopped) ∨
      (s.runState = .running ∧ s.inputs.haltReq = false ∧ t.runState = .faulted ∧ t.faultCause ≠ .none))

/-- R180: the core raises exactly three synchronous faults. The clauses exclude one another: a word exists only where both bytes do, and type D is none of the ten. -/
def Obligations.StepFaultsExactlyOnTheThreeConditions : Prop :=
  FaultCause.none.code = 0#2 ∧ FaultCause.fetchOutOfRange.code = 1#2 ∧ FaultCause.unhandledInstruction.code = 2#2 ∧
  FaultCause.spriteOutOfRange.code = 3#2 ∧
  ∀ s : State, s.Ready → ∃ t, step s = .next t ∧
    (4096 ≤ s.pc.toNat + 1 → s.FaultedFrom t .fetchOutOfRange 0x0000#16) ∧
    ∀ hi lo, memRead s.mem s.pc.toNat = some hi → memRead s.mem (s.pc.toNat + 1) = some lo →
      let f := decodeFields (assembleWord hi lo)
      let unhandled := f.type ∈ [0x2#4, 0x3#4, 0x4#4, 0x5#4, 0x8#4, 0x9#4, 0xB#4, 0xC#4, 0xE#4, 0xF#4]
      let outOfRange := f.type = 0xD#4 ∧ 4096 < s.i.toNat + f.n.toNat
      (unhandled → s.FaultedFrom t .unhandledInstruction (assembleWord hi lo)) ∧
      (outOfRange → s.FaultedFrom t .spriteOutOfRange (assembleWord hi lo)) ∧
      (¬unhandled → ¬outOfRange → t.runState = .running)

/-- R187: fault entry is a halt, not a transfer of control. -/
def Obligations.FaultEntryHaltsInPlace : Prop :=
  ∀ s t : State, s.Ready → step s = .next t → t.runState = .faulted →
    (∃ cause info, cause ≠ .none ∧ s.FaultedFrom t cause info) ∧
    ∀ ps : List Inputs, (∀ p ∈ ps, p.rst = false) → ∃ u, runWith ps t = .next u ∧ u.withInputs t.inputs = t

/-- R196: the halt request. -/
def Obligations.HaltRequestStopsBeforeTheFetch : Prop :=
  ∀ s : State, s.inputs.rst = false → s.runState = .running → s.inputs.stepEn = true → s.inputs.haltReq = true →
    ∃ t, step s = .next t ∧ t = { s with runState := .stopped } ∧
      ∀ ps : List Inputs, (∀ p ∈ ps, p.rst = false) → ∃ u, runWith ps t = .next u ∧ u.withInputs t.inputs = t

/-- R116, R193: halted states are left only by reset. -/
def Obligations.HaltedCoreTakesNoStep : Prop :=
  ∀ (ps : List Inputs) (s : State), s.runState ≠ .running → (∀ p ∈ ps, p.rst = false) →
    ∃ t, runWith ps s = .next t ∧ t.withInputs s.inputs = s

/-- R192: the order of simultaneous events within one step. -/
def Obligations.EventsOfOneStepHaveAnOrder : Prop :=
  ∀ s : State, s.runState = .running → s.inputs.stepEn = true → ∃ t, step s = .next t ∧
    let f := decodeFields (assembleWord (memByte s.mem s.pc.toNat) (memByte s.mem (s.pc.toNat + 1)))
    (t.runState, t.faultCause) =
      if s.inputs.rst = true then (.running, .none)
      else if s.inputs.haltReq = true then (.stopped, s.faultCause)
      else if 4096 ≤ s.pc.toNat + 1 then (.faulted, .fetchOutOfRange)
      else if f.type ∈ [0x2#4, 0x3#4, 0x4#4, 0x5#4, 0x8#4, 0x9#4, 0xB#4, 0xC#4, 0xE#4, 0xF#4] then (.faulted, .unhandledInstruction)
      else if f.type = 0xD#4 ∧ 4096 < s.i.toNat + f.n.toNat then (.faulted, .spriteOutOfRange)
      else (.running, s.faultCause)

/-- R220: reset. -/
def Obligations.ResetRestoresEveryRegister : Prop :=
  (∀ s : State, s.inputs.rst = true → ∃ t, step s = .next t ∧ (∀ j, t.getV j = 0x00#8) ∧ t.i = 0x0000#16 ∧
    t.pc = 0x0200#16 ∧ t.stack = [] ∧ (∀ y x, pixel t.fb y x = false) ∧ t.runState = .running ∧
    t.faultCause = .none ∧ t.faultInfo = 0x0000#16) ∧
  ∀ s t : State, step s = .next t → s.runState ≠ .running → t.runState = .running → s.inputs.rst = true

/-- R42's table, but for memory (`notes/assumptions/1.md`). -/
def Obligations.ResetStateIsTheTable : Prop :=
  State.reset.pc = 0x0200#16 ∧ (∀ j, State.reset.getV j = 0x00#8) ∧ State.reset.i = 0x0000#16 ∧ State.reset.stack = [] ∧
  (∀ y x, pixel State.reset.fb y x = false) ∧ State.reset.runState = .running ∧ State.reset.faultCause = .none ∧
  State.reset.faultInfo = 0x0000#16

/-- R230 and R221: the loader's port, and reset, which does not write memory. The third clause, that one step of reset stores exactly
the one byte on the port, is the model's reading (DEDUCED, `notes/assumptions/11.md`). -/
def Obligations.LoaderPortWritesOnlyUnderReset : Prop :=
  ∀ s t : State, step s = .next t →
    (s.inputs.rst = false → ∀ a, memRead t.mem a = memRead s.mem a) ∧
    (s.inputs.rst = true → s.inputs.ldWe = false → ∀ a, memRead t.mem a = memRead s.mem a) ∧
    (s.inputs.rst = true → s.inputs.ldWe = true → memWf s.mem = true →
      memRead t.mem s.inputs.ldAddr.toNat = some s.inputs.ldData ∧
      ∀ a, a ≠ s.inputs.ldAddr.toNat → memRead t.mem a = memRead s.mem a)

/-- R229: the ROM load contract, with MEM_INIT whatever memory held. The run over `bootInputs`, one store in each step of reset, is
the model's reading (DEDUCED, `notes/assumptions/11.md`). -/
def Obligations.BootLoadsTheRomVerbatim : Prop :=
  ∀ (s : State) (rom : List Byte), memWf s.mem = true →
    (rom.length ≤ 3584 → ∃ t, runWith (bootInputs rom) s = .next t ∧
      bootWith s.mem rom = some (t.withInputs Inputs.run) ∧
      (∀ k, k < rom.length → memRead t.mem (0x200 + k) = rom[k]?) ∧
      (∀ a, ¬(0x200 ≤ a ∧ a < 0x200 + rom.length) → memRead t.mem a = memRead s.mem a) ∧
      t.withInputs Inputs.run = { State.reset with mem := t.mem }) ∧
    (3584 < rom.length → bootWith s.mem rom = none)

/-- R118, at the reset state. -/
def Obligations.ResetMeetsTheInvariant : Prop :=
  State.reset.Inv

/-- R118 (a), (b), (d), (f), as an inductive invariant of every step. -/
def Obligations.StepKeepsTheInvariant : Prop :=
  ∀ s t : State, s.Inv → step s = .next t → t.Inv ∧ t.StackFits

/-- R118, over every run, for every MEM_INIT and every program. -/
def Obligations.EveryRunFromBootKeepsTheInvariant : Prop :=
  ∀ (mem0 : Mem) (rom : List Byte) (s t : State) (ps : List Inputs), memWf mem0 = true → bootWith mem0 rom = some s →
    (∀ p ∈ ps, p.rst = false) → runWith ps s = .next t → t.Inv ∧ t.mem = s.mem

/-- R58: no store in the subset. -/
def Obligations.NoInstructionWritesMemory : Prop :=
  (∀ (i : Instr) (s t : State), exec i s = .next t → t.mem = s.mem) ∧
  ∀ (ps : List Inputs) (s t : State), (∀ p ∈ ps, p.rst = false) → runWith ps s = .next t → t.mem = s.mem

/-- R130: clear screen, with its frame. -/
def Obligations.ClsTurnsEveryPixelOff : Prop :=
  Source.cls.assemble = some [0x00#8, 0xE0#8] ∧
  ∀ (low : Imm12) (s : State), decodeWord (0x0#4 ++ low) = .cls low ∧ ∃ t, exec (.cls low) s = .next t ∧
    (∀ y x, pixel t.fb y x = false) ∧ t.pc = s.pc + 2#16 ∧ (∀ j, t.getV j = s.getV j) ∧ t.i = s.i ∧ s.Kept t

/-- R136: jump, with its frame and corner case (b). -/
def Obligations.JpSetsPcExactly : Prop :=
  ∀ (nnn : Imm12) (s : State), decodeWord (0x1#4 ++ nnn) = .jp nnn ∧ ∃ t, exec (.jp nnn) s = .next t ∧
    t.pc.toNat = nnn.toNat ∧ (∀ j, t.getV j = s.getV j) ∧ t.i = s.i ∧ (∀ y x, pixel t.fb y x = pixel s.fb y x) ∧
    s.Kept t ∧
    (s.Ready → (nnn = 0xFFF#12 ↔ ∃ u, step t = .next u ∧ t.FaultedFrom u .fetchOutOfRange 0x0000#16))

/-- R141: set register immediate, with its frame. -/
def Obligations.LdVWritesOneRegister : Prop :=
  ∀ (x : Nibble) (nn : Byte) (s : State), decodeWord ((0x6#4 ++ x) ++ nn) = .ldV x nn ∧
    ∃ t, exec (.ldV x nn) s = .next t ∧ t.getV x = nn ∧ (∀ j, j ≠ x → t.getV j = s.getV j) ∧ t.pc = s.pc + 2#16 ∧
      t.i = s.i ∧ (∀ y c, pixel t.fb y c = pixel s.fb y c) ∧ s.Kept t

/-- R144 and R147: add immediate, with its frame. -/
def Obligations.AddVWrapsAndSetsNoFlag : Prop :=
  ∀ (x : Nibble) (nn : Byte) (s : State), decodeWord ((0x7#4 ++ x) ++ nn) = .addV x nn ∧
    ∃ t, exec (.addV x nn) s = .next t ∧ (t.getV x).toNat = ((s.getV x).toNat + nn.toNat) % 256 ∧
      (∀ j, j ≠ x → t.getV j = s.getV j) ∧ t.pc = s.pc + 2#16 ∧
      t.i = s.i ∧ (∀ y c, pixel t.fb y c = pixel s.fb y c) ∧ s.Kept t

/-- R148: set index, with its frame. -/
def Obligations.LdIWritesTheIndexRegister : Prop :=
  ∀ (nnn : Imm12) (s : State), decodeWord (0xA#4 ++ nnn) = .ldI nnn ∧ ∃ t, exec (.ldI nnn) s = .next t ∧
    t.i.toNat = nnn.toNat ∧ t.pc = s.pc + 2#16 ∧ (∀ j, t.getV j = s.getV j) ∧
    (∀ y c, pixel t.fb y c = pixel s.fb y c) ∧ s.Kept t

/-- R159: the loops of R150, which the model defines the blit by, are the pointwise form; with the frame of R150. -/
def Obligations.DrwIsThePointwiseForm : Prop :=
  ∀ (vx vy n : Nibble) (s : State), s.i.toNat + n.toNat ≤ 4096 →
    ∃ t, exec (.drw vx vy n) s = .next t ∧
      (∀ y x, y < 32 → x < 64 → pixel t.fb y x = (pixel s.fb y x ^^ drawHit s vx vy n y x)) ∧
      ((∃ y x, drawHit s vx vy n y x = true ∧ pixel s.fb y x = true) → t.getV 0xF#4 = 0x01#8) ∧
      ((¬∃ y x, drawHit s vx vy n y x = true ∧ pixel s.fb y x = true) → t.getV 0xF#4 = 0x00#8) ∧
      (∀ j, j ≠ 0xF#4 → t.getV j = s.getV j) ∧ t.i = s.i ∧ t.pc = s.pc + 2#16 ∧ s.Kept t

/-- R153: the sprite range check. -/
def Obligations.DrwChecksAllRowsBeforeDrawing : Prop :=
  FaultCause.spriteOutOfRange.code = 3#2 ∧
  ∀ (vx vy n : Nibble) (s : State),
    (4096 < s.i.toNat + n.toNat → ∃ t, exec (.drw vx vy n) s = .next t ∧
      s.FaultedFrom t .spriteOutOfRange (.ofNat 16 (0xD000 + vx.toNat * 256 + vy.toNat * 16 + n.toNat))) ∧
    (s.i.toNat + n.toNat ≤ 4096 → ∃ t, exec (.drw vx vy n) s = .next t ∧ t.runState = s.runState ∧
      t.faultCause = s.faultCause ∧ t.faultInfo = s.faultInfo)

/-- R154 and R156: clipping and compositing. -/
def Obligations.DrwTogglesOnlyTheClippedRectangle : Prop :=
  ∀ (vx vy n : Nibble) (s : State), s.i.toNat + n.toNat ≤ 4096 →
    let startx := (s.getV vx).toNat % 64
    let starty := (s.getV vy).toNat % 32
    let w := min (64 - startx) 8
    let h := min (32 - starty) n.toNat
    1 ≤ w ∧ w ≤ 8 ∧ h ≤ 15 ∧ startx + w ≤ 64 ∧ starty + h ≤ 32 ∧
    ∃ t, exec (.drw vx vy n) s = .next t ∧
      (∀ r c, r < h → c < w → pixel t.fb (starty + r) (startx + c) =
        if (memByte s.mem (s.i.toNat + r)).getLsbD (7 - c) then !pixel s.fb (starty + r) (startx + c)
        else pixel s.fb (starty + r) (startx + c)) ∧
      ∀ y x, ¬(starty ≤ y ∧ y < starty + h ∧ startx ≤ x ∧ x < startx + w) → pixel t.fb y x = pixel s.fb y x

/-- R157: the wordings of the collision condition are one condition. -/
def Obligations.CollisionMeansAnOnPixelTurnedOff : Prop :=
  ∀ (vx vy n : Nibble) (s : State), s.i.toNat + n.toNat ≤ 4096 → ∃ t, exec (.drw vx vy n) s = .next t ∧
    (t.getV 0xF#4 = 0x01#8 ↔ ∃ y x, pixel s.fb y x = true ∧ pixel t.fb y x = false) ∧
    (t.getV 0xF#4 = 0x00#8 ↔ ¬∃ y x, pixel s.fb y x = true ∧ pixel t.fb y x = false)

/-- R158: with X = 0xF or Y = 0xF the coordinate is the value VF held before the instruction. -/
def Obligations.DrwReadsCoordinatesBeforeWritingVf : Prop :=
  ∀ (vx vy vx' vy' n : Nibble) (s : State), s.i.toNat + n.toNat ≤ 4096 → s.getV vx' = s.getV vx →
    s.getV vy' = s.getV vy → ∃ t, exec (.drw vx vy n) s = .next t ∧ exec (.drw vx' vy' n) s = .next t

/-- R152 and R158: a DRW that draws nothing sets VF to 0 whatever it held. -/
def Obligations.BlankSpriteDrawsNothingAndClearsVf : Prop :=
  ∀ (vx vy n : Nibble) (s : State), s.i.toNat + n.toNat ≤ 4096 →
    (∀ r, r < n.toNat → memByte s.mem (s.i.toNat + r) = 0x00#8) →
    ∃ t, exec (.drw vx vy n) s = .next t ∧ (∀ y x, pixel t.fb y x = pixel s.fb y x) ∧ t.getV 0xF#4 = 0x00#8

/-- R160 (a), (b), (c): drawing is an involution; with X or Y = 15 it is so where VF is restored between the two draws. -/
def Obligations.DrawingTwiceRestoresTheScreen : Prop :=
  ∀ (vx vy n : Nibble) (s : State), s.i.toNat + n.toNat ≤ 4096 → ∃ t, exec (.drw vx vy n) s = .next t ∧
    ((∀ y x, pixel s.fb y x = false) → t.getV 0xF#4 = 0x00#8) ∧
    ∀ t', (t' = t ∧ vx ≠ 0xF#4 ∧ vy ≠ 0xF#4) ∨ t' = t.setV 0xF#4 (s.getV 0xF#4) →
      ∃ u, exec (.drw vx vy n) t' = .next u ∧ u.fb = s.fb ∧
        (u.getV 0xF#4 = 0x01#8 ↔ ∃ y x, pixel s.fb y x = false ∧ pixel t.fb y x = true) ∧
        (u.getV 0xF#4 = 0x01#8 ↔ ∃ y x, drawHit s vx vy n y x = true ∧ pixel s.fb y x = false)

/-- R90: illegal2, illegal3, illegal4, illegal5, illegal8, illegal9, illegalB, illegalC, illegalE, illegalF. -/
def Obligations.UnhandledTypesFaultInPlace : Prop :=
  FaultCause.unhandledInstruction.code = 2#2 ∧
  ∀ s : State,
    (∀ w : Word, w.extractLsb' 12 4 ∈ [0x2#4, 0x3#4, 0x4#4, 0x5#4, 0x8#4, 0x9#4, 0xB#4, 0xC#4, 0xE#4, 0xF#4] →
      ∃ t, exec (decodeWord w) s = .next t ∧ s.FaultedFrom t .unhandledInstruction w) ∧
    ∀ (low : Imm12) (i : Instr), i ∈ [.illegal2 low, .illegal3 low, .illegal4 low, .illegal5 low, .illegal8 low, .illegal9 low,
      .illegalB low, .illegalC low, .illegalE low, .illegalF low] →
      ∃ t, exec i s = .next t ∧ s.FaultedFrom t .unhandledInstruction (encode i)

/-- R35: fb is written only by CLS and by DRW. -/
def Obligations.OnlyClsAndDrwChangeTheFramebuffer : Prop :=
  ∀ (i : Instr) (s t : State), exec i s = .next t → t.fb ≠ s.fb →
    (∃ low, i = .cls low) ∨ ∃ vx vy n, i = .drw vx vy n

/-- R30, its second sentence: which instruction writes I, and which reads it. -/
def Obligations.OnlyLdIWritesAndOnlyDrwReadsI : Prop :=
  (∀ (i : Instr) (s t : State), exec i s = .next t → t.i ≠ s.i → ∃ nnn, i = .ldI nnn ∧ t.i = nnn.setWidth 16) ∧
  ∀ (i : Instr) (s t : State) (w : Word), (∀ vx vy n, i ≠ .drw vx vy n) → exec i s = .next t →
    ∃ u, exec i { s with i := w } = .next u ∧ { u with i := t.i } = t

/-- R21: which instruction writes which general register. -/
def Obligations.OnlyTheNamedRegisterChanges : Prop :=
  ∀ (i : Instr) (s t : State) (j : Nibble), exec i s = .next t → t.getV j ≠ s.getV j →
    (∃ nn, i = .ldV j nn) ∨ (∃ nn, i = .addV j nn) ∨ (j = 0xF#4 ∧ ∃ vx vy n, i = .drw vx vy n)

/-- R26: how each instruction advances PC. -/
def Obligations.PcAdvancesByTheTable : Prop :=
  ∀ (i : Instr) (s t : State), s.runState = .running → exec i s = .next t →
    (∀ nnn, i = .jp nnn → t.pc = nnn.setWidth 16) ∧
    ((∀ nnn, i ≠ .jp nnn) → t.runState = .faulted → t.pc = s.pc) ∧
    ((∀ nnn, i ≠ .jp nnn) → t.runState ≠ .faulted → t.pc = s.pc + 2#16) ∧
    (s.pc.toNat + 1 < 4096 → (s.pc + 2#16).toNat = s.pc.toNat + 2 ∧ s.pc.toNat + 2 ≤ 0x1000)

/-- R33: the stack is inert. -/
def Obligations.StackIsInert : Prop :=
  (∀ (i : Instr) (s t : State) (st : List Word), exec i s = .next t →
    t.stack = s.stack ∧ exec i { s with stack := st } = .next { t with stack := st }) ∧
  ∀ (ps : List Inputs) (s t : State), (∀ p ∈ ps, p.rst = false) → runWith ps s = .next t → t.stack = s.stack

/-- R56 and R68: the only data access to memory is DRW's sprite read. -/
def Obligations.InstructionsReadOnlyTheirSpriteBytes : Prop :=
  ∀ (i : Instr) (s t : State) (m : Mem),
    (∀ vx vy n, i = .drw vx vy n → ∀ r, r < n.toNat → memByte m (s.i.toNat + r) = memByte s.mem (s.i.toNat + r)) →
    exec i s = .next t → exec i { s with mem := m } = .next { t with mem := m }

/-- R119: a fixed point of the step, with item 3 of R238. -/
def Obligations.JumpToSelfIsAFixedPoint : Prop :=
  ∀ s : State, s.Ready → s.pc.toNat + 1 < 4096 →
    memRead s.mem s.pc.toNat = some (.ofNat 8 (0x10 + s.pc.toNat / 256)) →
    memRead s.mem (s.pc.toNat + 1) = some (.ofNat 8 (s.pc.toNat % 256)) →
    step s = .next s ∧ (∀ k, Sys2Proof.core.run k s = .next s) ∧ runEnd s = some .quiescent

/-- R237: steps may be separated by any delay, and no rule depends on time. That a halt request is not sampled while `step_en` is low,
so that it may be dropped with the setting that carries it, is the model's reading (DEDUCED, `notes/assumptions/4.md`). -/
def Obligations.PacingChangesNothing : Prop :=
  ∀ (ps : List Inputs) (s : State), (∀ p ∈ ps, p.rst = false) →
    ∃ t u, runWith ps s = .next t ∧ runWith (ps.filter fun p => p.stepEn) s = .next u ∧ u.withInputs t.inputs = t

/-- R43: `fb_rdata = fb[fb_raddr[10:6]][fb_raddr[5:0]]`, pixel index y*64 + x. -/
def Obligations.ReadPortIsRowMajor : Prop :=
  ∀ (s : State) (y x : Nat), y < 32 → x < 64 → fbRdata s (.ofNat 11 (y * 64 + x)) = pixel s.fb y x

/-- R36 to R38: the status registers on their ports. -/
def Obligations.StatusPortsCarryTheCodes : Prop :=
  ∀ s : State, ((statusPorts s).runState = 0#2 ↔ s.runState = .running) ∧
    ((statusPorts s).runState = 1#2 ↔ s.runState = .stopped) ∧ ((statusPorts s).runState = 2#2 ↔ s.runState = .faulted) ∧
    (statusPorts s).runState ≠ 3#2 ∧ ((statusPorts s).faultCause = 0#2 ↔ s.faultCause = .none) ∧
    ((statusPorts s).faultCause = 1#2 ↔ s.faultCause = .fetchOutOfRange) ∧
    ((statusPorts s).faultCause = 2#2 ↔ s.faultCause = .unhandledInstruction) ∧
    ((statusPorts s).faultCause = 3#2 ↔ s.faultCause = .spriteOutOfRange) ∧ (statusPorts s).faultInfo = s.faultInfo

/-- R239: what the host does in each move, and what it cannot do; the levels are those of R230 and R231. The field that holds the
levels, and `ld_we` low after `reset` and `run`, are the model's (DESIGN CHOICE, `notes/assumptions/3.md`). -/
def Obligations.HostMovesReachOnlyTheInputs : Prop :=
  ∀ s : State,
    (∀ m : HostMove, (m.apply s).withInputs s.inputs = s) ∧
    (HostMove.reset.apply s).inputs = { s.inputs with rst := true, ldWe := false } ∧
    (∀ addr data, ((HostMove.load addr data).apply s).inputs =
      { s.inputs with ldWe := true, ldAddr := addr, ldData := data }) ∧
    (HostMove.run.apply s).inputs = { s.inputs with rst := false, haltReq := false, ldWe := false } ∧
    (∀ enable, ((HostMove.pace enable).apply s).inputs = { s.inputs with stepEn := enable }) ∧
    (HostMove.requestHalt.apply s).inputs = { s.inputs with haltReq := true } ∧
    HostMove.readFramebuffer.apply s = s ∧ HostMove.readStatus.apply s = s

/-- The model's placement of a word, `notes/assumptions/5.md`, meets the step. -/
def Obligations.PlacedWordIsTheNextStep : Prop :=
  ∀ (s : State) (w : Nat) (i : Instr), memWf s.mem = true → decodeTableWord 16 w = some i →
    step (s.withFetchWord 16 w) = exec i (s.withFetchWord 16 w)

/-- R239, the column of what the core does. It rests on the model's readings in `notes/assumptions/3.md` (levels that stay, DESIGN
CHOICE), `notes/assumptions/4.md` (`step_en` before `halt_req`, DEDUCED) and `notes/assumptions/11.md` (one byte a step, DEDUCED). -/
def Obligations.HostMovesHaveTheEffectsOfTheHostTable : Prop :=
  ∀ s : State,
    step (HostMove.reset.apply s) = .next { State.reset with mem := s.mem, inputs := (HostMove.reset.apply s).inputs } ∧
    (∀ addr data, s.inputs.rst = true → memWf s.mem = true →
      ∃ t, step ((HostMove.load addr data).apply s) = .next t ∧ memRead t.mem addr.toNat = some data ∧
        ∀ a, a ≠ addr.toNat → memRead t.mem a = memRead s.mem a) ∧
    (∀ addr data, s.inputs.rst = false → ∃ t, step ((HostMove.load addr data).apply s) = .next t ∧ t.mem = s.mem) ∧
    (s.runState = .running → s.inputs.stepEn = true → (HostMove.run.apply s).Ready) ∧
    (s.inputs.rst = false → step ((HostMove.pace false).apply s) = .next ((HostMove.pace false).apply s)) ∧
    (s.inputs.rst = false → s.runState = .running → s.inputs.stepEn = true →
      step (HostMove.requestHalt.apply s) = .next { HostMove.requestHalt.apply s with runState := .stopped }) ∧
    step (HostMove.readFramebuffer.apply s) = step s ∧ step (HostMove.readStatus.apply s) = step s

/-- R160 (d). A targeted pixel is one that R159's `hit` names. -/
def Obligations.OnPixelCountChangesByTheTargetedPixels : Prop :=
  ∀ (vx vy n : Nibble) (s : State), s.i.toNat + n.toNat ≤ 4096 → ∃ t, exec (.drw vx vy n) s = .next t ∧
    countPixels (pixel t.fb) + countPixels (fun y x => drawHit s vx vy n y x && pixel s.fb y x) =
      countPixels (pixel s.fb) + countPixels (fun y x => drawHit s vx vy n y x && !pixel s.fb y x)
end

