-- ==== Sys2Proof/Laws/Decode.lean ====
section
/-! SUPPORT. Small lemmas of decoding and encoding: an appended word as a number, the fields of each format's words, and
dispatch at each type. -/

namespace Sys2Proof

/-! ### Words as numbers -/

theorem toNat_append_add {v w : Nat} (a : BitVec v) (b : BitVec w) : (a ++ b).toNat = a.toNat * 2 ^ w + b.toNat := by
  rw [BitVec.toNat_append, ← Nat.shiftLeft_add_eq_or_of_lt b.isLt, Nat.shiftLeft_eq]

theorem toNat_field (w : Word) (lo len : Nat) : (w.extractLsb' lo len).toNat = w.toNat / 2 ^ lo % 2 ^ len := by
  rw [BitVec.extractLsb'_toNat, Nat.shiftRight_eq_div_pow]

/-- Big-endian assembly as a number (R52). -/
theorem assembleWord_toNat (hi lo : Byte) : (assembleWord hi lo).toNat = hi.toNat * 256 + lo.toNat :=
  toNat_append_add hi lo

/-- A word is assembled from its two bytes. -/
theorem assembleWord_bytes (w : Word) : assembleWord (w.extractLsb' 8 8) (w.extractLsb' 0 8) = w := by
  apply BitVec.eq_of_toNat_eq
  have := w.isLt
  rw [assembleWord_toNat, toNat_field, toNat_field]
  omega

/-! ### The fields of a word of each format -/

theorem fields_imm12 (t : Nibble) (nnn : Imm12) :
    (t ++ nnn : Word).extractLsb' 12 4 = t ∧ (t ++ nnn : Word).extractLsb' 0 12 = nnn := by
  have h1 := t.isLt
  have h2 := nnn.isLt
  constructor <;> apply BitVec.eq_of_toNat_eq <;> rw [toNat_field, toNat_append_add] <;> omega

theorem fields_x_nn (t x : Nibble) (nn : Byte) :
    ((t ++ x) ++ nn : Word).extractLsb' 12 4 = t ∧ ((t ++ x) ++ nn : Word).extractLsb' 8 4 = x ∧
    ((t ++ x) ++ nn : Word).extractLsb' 0 8 = nn := by
  have h1 := t.isLt
  have h2 := x.isLt
  have h3 := nn.isLt
  refine ⟨?_, ?_, ?_⟩ <;> apply BitVec.eq_of_toNat_eq <;> rw [toNat_field, toNat_append_add, toNat_append_add] <;> omega

theorem fields_x_y_n (t x y n : Nibble) :
    (((t ++ x) ++ y) ++ n : Word).extractLsb' 12 4 = t ∧ (((t ++ x) ++ y) ++ n : Word).extractLsb' 8 4 = x ∧
    (((t ++ x) ++ y) ++ n : Word).extractLsb' 4 4 = y ∧ (((t ++ x) ++ y) ++ n : Word).extractLsb' 0 4 = n := by
  have h1 := t.isLt
  have h2 := x.isLt
  have h3 := y.isLt
  have h4 := n.isLt
  refine ⟨?_, ?_, ?_, ?_⟩ <;> apply BitVec.eq_of_toNat_eq <;>
    rw [toNat_field, toNat_append_add, toNat_append_add, toNat_append_add] <;> omega

/-! ### Dispatch at each type -/

theorem nibble_cases (t : Nibble) : t = 0x0#4 ∨ t = 0x1#4 ∨ t = 0x2#4 ∨ t = 0x3#4 ∨ t = 0x4#4 ∨ t = 0x5#4 ∨ t = 0x6#4 ∨
    t = 0x7#4 ∨ t = 0x8#4 ∨ t = 0x9#4 ∨ t = 0xA#4 ∨ t = 0xB#4 ∨ t = 0xC#4 ∨ t = 0xD#4 ∨ t = 0xE#4 ∨ t = 0xF#4 := by
  revert t; decide

section
variable (x y n : Nibble) (nn : Byte) (nnn : Imm12)

@[simp] theorem selectInstr_type0 : selectInstr ⟨0x0#4, x, y, n, nn, nnn⟩ = .cls nnn := by simp [selectInstr]
@[simp] theorem selectInstr_type1 : selectInstr ⟨0x1#4, x, y, n, nn, nnn⟩ = .jp nnn := by simp [selectInstr]
@[simp] theorem selectInstr_type2 : selectInstr ⟨0x2#4, x, y, n, nn, nnn⟩ = .illegal2 nnn := by simp [selectInstr]
@[simp] theorem selectInstr_type3 : selectInstr ⟨0x3#4, x, y, n, nn, nnn⟩ = .illegal3 nnn := by simp [selectInstr]
@[simp] theorem selectInstr_type4 : selectInstr ⟨0x4#4, x, y, n, nn, nnn⟩ = .illegal4 nnn := by simp [selectInstr]
@[simp] theorem selectInstr_type5 : selectInstr ⟨0x5#4, x, y, n, nn, nnn⟩ = .illegal5 nnn := by simp [selectInstr]
@[simp] theorem selectInstr_type6 : selectInstr ⟨0x6#4, x, y, n, nn, nnn⟩ = .ldV x nn := by simp [selectInstr]
@[simp] theorem selectInstr_type7 : selectInstr ⟨0x7#4, x, y, n, nn, nnn⟩ = .addV x nn := by simp [selectInstr]
@[simp] theorem selectInstr_type8 : selectInstr ⟨0x8#4, x, y, n, nn, nnn⟩ = .illegal8 nnn := by simp [selectInstr]
@[simp] theorem selectInstr_type9 : selectInstr ⟨0x9#4, x, y, n, nn, nnn⟩ = .illegal9 nnn := by simp [selectInstr]
@[simp] theorem selectInstr_typeA : selectInstr ⟨0xA#4, x, y, n, nn, nnn⟩ = .ldI nnn := by simp [selectInstr]
@[simp] theorem selectInstr_typeB : selectInstr ⟨0xB#4, x, y, n, nn, nnn⟩ = .illegalB nnn := by simp [selectInstr]
@[simp] theorem selectInstr_typeC : selectInstr ⟨0xC#4, x, y, n, nn, nnn⟩ = .illegalC nnn := by simp [selectInstr]
@[simp] theorem selectInstr_typeD : selectInstr ⟨0xD#4, x, y, n, nn, nnn⟩ = .drw x y n := by simp [selectInstr]
@[simp] theorem selectInstr_typeE : selectInstr ⟨0xE#4, x, y, n, nn, nnn⟩ = .illegalE nnn := by simp [selectInstr]
@[simp] theorem selectInstr_typeF : selectInstr ⟨0xF#4, x, y, n, nn, nnn⟩ = .illegalF nnn := by simp [selectInstr]

end

/-- The selected instruction has the type it was selected by (R88). -/
theorem selectInstr_opType (f : Fields) : (selectInstr f).opType = f.type := by
  obtain ⟨t, x, y, n, nn, nnn⟩ := f
  rcases nibble_cases t with h | h | h | h | h | h | h | h | h | h | h | h | h | h | h | h <;> subst h <;> simp [Instr.opType]

end Sys2Proof
end

