-- ==== Sys2Proof/Laws/Framebuffer.lean ====
section
/-! SUPPORT. The laws of the framebuffer and of the blit engine: the loops of `44_draw_sprite.md` R150 are the pointwise
form of R159. -/

namespace Sys2Proof.Machine

/-! ### Pixels -/

theorem pixel_outside (fb : Framebuffer) {y x : Nat} (h : ¬(y < 32 ∧ x < 64)) : pixel fb y x = false := dif_neg h

@[simp] theorem pixel_allOff (y x : Nat) : pixel allOff y x = false := by
  unfold pixel allOff
  split <;> simp

/-- Reading a pixel after a write to one. -/
theorem pixel_setPixel (fb : Framebuffer) {y x : Nat} (b : Bool) (h : y < 32 ∧ x < 64) (y' x' : Nat) :
    pixel (setPixel fb y x b) y' x' = if y' = y ∧ x' = x then b else pixel fb y' x' := by
  unfold setPixel
  rw [dif_pos h]
  by_cases h' : y' < 32 ∧ x' < 64
  · simp only [pixel, dif_pos h', Vector.getElem_set]
    by_cases hy : y = y'
    · subst hy
      by_cases hx : x = x'
      · subst hx; simp
      · simp [hx, Ne.symm hx]
    · simp [hy, Ne.symm hy]
  · rw [pixel_outside _ h', pixel_outside _ h', if_neg]
    rintro ⟨rfl, rfl⟩
    exact h' h

/-- Framebuffers with the same pixels are equal. -/
theorem framebuffer_ext {g g' : Framebuffer} (h : ∀ y x, y < 32 → x < 64 → pixel g y x = pixel g' y x) : g = g' := by
  apply Vector.ext
  intro y hy
  apply Vector.ext
  intro x hx
  simpa [pixel, hy, hx] using h y x hy hx

/-! ### The clipped rectangle -/

theorem startx_add_width_le (startx : BitVec 6) : startx.toNat + effectiveWidth startx ≤ 64 := by
  have := startx.isLt
  simp only [effectiveWidth, Config.fbWidth, Config.spriteWidth]
  omega

theorem starty_add_height_le (starty : BitVec 5) (rows : Nat) : starty.toNat + effectiveHeight starty rows ≤ 32 := by
  have := starty.isLt
  simp only [effectiveHeight, Config.fbHeight]
  omega

/-- A pixel of a row's first `k` columns whose sprite bit is 1. -/
def rowHit (startx : BitVec 6) (bits : Byte) (y0 k y x : Nat) : Bool :=
  decide (y = y0 ∧ startx.toNat ≤ x ∧ x < startx.toNat + k) && spriteBit bits (x - startx.toNat)

/-- What `k` columns of a row do, from any accumulator. -/
theorem blitPixel_foldl (startx : BitVec 6) (starty : BitVec 5) (bits : Byte) (r k : Nat) (acc : Framebuffer × Bool)
    (hr : starty.toNat + r < 32) (hk : startx.toNat + k ≤ 64) :
    let out := (List.range k).foldl (blitPixel startx starty bits r) acc
    (∀ y x, pixel out.1 y x = (pixel acc.1 y x ^^ rowHit startx bits (starty.toNat + r) k y x)) ∧
    (out.2 = true ↔ acc.2 = true ∨ ∃ y x, rowHit startx bits (starty.toNat + r) k y x = true ∧ pixel acc.1 y x = true) := by
  induction k with
  | zero =>
    have h0 : ∀ y x, rowHit startx bits (starty.toNat + r) 0 y x = false := by
      intro y x; simp [rowHit]
    simp [h0]
  | succ k ih =>
    obtain ⟨ihp, ihc⟩ := ih (by omega)
    simp only [List.range_succ, List.foldl_append, List.foldl_cons, List.foldl_nil]
    generalize (List.range k).foldl (blitPixel startx starty bits r) acc = mid at ihp ihc
    have hxy : starty.toNat + r < 32 ∧ startx.toNat + k < 64 := ⟨hr, by omega⟩
    have hsame : pixel mid.1 (starty.toNat + r) (startx.toNat + k) = pixel acc.1 (starty.toNat + r) (startx.toNat + k) := by
      rw [ihp]; simp [rowHit]
    have hstep : ∀ y x, rowHit startx bits (starty.toNat + r) (k + 1) y x =
        (rowHit startx bits (starty.toNat + r) k y x ||
          (decide (y = starty.toNat + r ∧ x = startx.toNat + k) && spriteBit bits k)) := by
      intro y x
      by_cases h1 : y = starty.toNat + r ∧ x = startx.toNat + k
      · obtain ⟨rfl, rfl⟩ := h1; simp [rowHit]
      · simp only [rowHit, h1, decide_false, Bool.false_and, Bool.or_false]
        congr 1
        simp only [decide_eq_decide]
        omega
    unfold blitPixel
    split
    · next hb =>
      constructor
      · intro y x
        simp only [pixel_setPixel _ _ hxy, hstep, hb]
        split
        · next e => obtain ⟨rfl, rfl⟩ := e; rw [hsame]; simp [rowHit]
        · next e => rw [ihp]; simp [e]
      · simp only [accumulate, Bool.or_eq_true, ihc, hsame, hstep, hb]
        constructor
        · rintro ((h | ⟨y, x, h1, h2⟩) | h)
          · exact .inl h
          · exact .inr ⟨y, x, .inl h1, h2⟩
          · exact .inr ⟨_, _, .inr (by simp), h⟩
        · rintro (h | ⟨y, x, h1 | h1, h2⟩)
          · exact .inl (.inl h)
          · exact .inl (.inr ⟨y, x, h1, h2⟩)
          · simp at h1
            obtain ⟨rfl, rfl⟩ := h1
            exact .inr h2
    · next hb =>
      have hb' : spriteBit bits k = false := by simpa using hb
      constructor
      · intro y x; rw [ihp, hstep, hb']; simp
      · rw [ihc]; simp [hstep, hb']

/-- A pixel of the first `k` rows of the sprite that the blit targets. -/
def rowsHit (startx : BitVec 6) (starty : BitVec 5) (sprite : List Byte) (k y x : Nat) : Bool :=
  decide (starty.toNat ≤ y ∧ y < starty.toNat + k ∧ startx.toNat ≤ x ∧ x < startx.toNat + effectiveWidth startx)
  && spriteBit (sprite.getD (y - starty.toNat) 0x00#8) (x - startx.toNat)

theorem blitRow_foldl (startx : BitVec 6) (starty : BitVec 5) (sprite : List Byte) (k : Nat) (fb : Framebuffer)
    (hk : starty.toNat + k ≤ 32) :
    let out := (List.range k).foldl (blitRow startx starty sprite) (fb, false)
    (∀ y x, pixel out.1 y x = (pixel fb y x ^^ rowsHit startx starty sprite k y x)) ∧
    (out.2 = true ↔ ∃ y x, rowsHit startx starty sprite k y x = true ∧ pixel fb y x = true) := by
  induction k with
  | zero =>
    have h0 : ∀ y x, rowsHit startx starty sprite 0 y x = false := by
      intro y x; simp [rowsHit]; omega
    simp [h0]
  | succ k ih =>
    obtain ⟨ihp, ihc⟩ := ih (by omega)
    simp only [List.range_succ, List.foldl_append, List.foldl_cons, List.foldl_nil]
    generalize (List.range k).foldl (blitRow startx starty sprite) (fb, false) = mid at ihp ihc
    obtain ⟨rp, rc⟩ := blitPixel_foldl startx starty (sprite.getD k 0x00#8) k (effectiveWidth startx) mid (by omega)
      (startx_add_width_le startx)
    have hstep : ∀ y x, rowsHit startx starty sprite (k + 1) y x =
        (rowsHit startx starty sprite k y x ||
          rowHit startx (sprite.getD k 0x00#8) (starty.toNat + k) (effectiveWidth startx) y x) := by
      intro y x
      by_cases h1 : y = starty.toNat + k
      · subst h1; simp [rowsHit, rowHit]
      · simp only [rowsHit, rowHit, h1, false_and, decide_false, Bool.false_and, Bool.or_false]
        congr 1
        simp only [decide_eq_decide]
        omega
    have hdisj : ∀ y x, rowHit startx (sprite.getD k 0x00#8) (starty.toNat + k) (effectiveWidth startx) y x = true →
        rowsHit startx starty sprite k y x = false := by
      intro y x h
      simp [rowHit] at h
      simp [rowsHit]
      omega
    constructor
    · intro y x
      rw [blitRow, rp, ihp, hstep]
      cases hrow : rowHit startx (sprite.getD k 0x00#8) (starty.toNat + k) (effectiveWidth startx) y x
      · simp
      · rw [hdisj y x hrow]; simp
    · rw [blitRow, rc, ihc]
      constructor
      · rintro (⟨y, x, h1, h2⟩ | ⟨y, x, h1, h2⟩)
        · exact ⟨y, x, by rw [hstep, h1]; rfl, h2⟩
        · rw [ihp, hdisj y x h1, Bool.xor_false] at h2
          exact ⟨y, x, by rw [hstep, h1, Bool.or_true], h2⟩
      · rintro ⟨y, x, h1, h2⟩
        rw [hstep, Bool.or_eq_true] at h1
        rcases h1 with h1 | h1
        · exact .inl ⟨y, x, h1, h2⟩
        · refine .inr ⟨y, x, h1, ?_⟩
          rw [ihp, hdisj y x h1, Bool.xor_false]
          exact h2

/-- Everything a blit does: each pixel is toggled where the sprite hits it, and nowhere else. -/
theorem pixel_blit (startx : BitVec 6) (starty : BitVec 5) (sprite : List Byte) (fb : Framebuffer) (y x : Nat) :
    pixel (blit startx starty sprite fb).1 y x = (pixel fb y x ^^ hit startx starty sprite y x) :=
  (blitRow_foldl startx starty sprite _ fb (starty_add_height_le starty _)).1 y x

/-- The collision result: some hit pixel was on before the blit. -/
theorem blit_collision (startx : BitVec 6) (starty : BitVec 5) (sprite : List Byte) (fb : Framebuffer) :
    (blit startx starty sprite fb).2 = true ↔ ∃ y x, hit startx starty sprite y x = true ∧ pixel fb y x = true :=
  (blitRow_foldl startx starty sprite _ fb (starty_add_height_le starty _)).2

/-- A hit pixel is on the screen (R67). -/
theorem hit_on_screen {startx : BitVec 6} {starty : BitVec 5} {sprite : List Byte} {y x : Nat}
    (h : hit startx starty sprite y x = true) : y < 32 ∧ x < 64 := by
  have hw := startx_add_width_le startx
  have hh := starty_add_height_le starty sprite.length
  simp [hit] at h
  omega

/-! ### Counting pixels -/

/-- Two pairs of predicates that agree in number at every position agree in number over the grid. -/
theorem countPixels_add_eq_add {a b c d : Nat → Nat → Bool}
    (h : ∀ y x, (a y x).toNat + (b y x).toNat = (c y x).toNat + (d y x).toNat) :
    countPixels a + countPixels b = countPixels c + countPixels d := by
  have hrow : ∀ (y : Nat) (l : List Nat), l.countP (a y) + l.countP (b y) = l.countP (c y) + l.countP (d y) := by
    intro y l
    induction l with
    | nil => rfl
    | cons x l ih =>
      have hx := h y x
      simp only [List.countP_cons]
      cases ha : a y x <;> cases hb : b y x <;> cases hc : c y x <;> cases hd : d y x <;> simp [ha, hb, hc, hd] at hx ⊢ <;> omega
  unfold countPixels
  generalize List.range 32 = l
  induction l with
  | nil => rfl
  | cons y l ih =>
    have := hrow y (List.range 64)
    simp only [List.map_cons, List.sum_cons]
    omega

end Sys2Proof.Machine
end

