-- ==== Sys2Proof/Laws/Memory.lean ====
section
/-! SUPPORT. The laws of memory: a read after a write, and the canonical form, which every memory operation keeps. -/

namespace Sys2Proof.Machine

/-! ### Reads -/

theorem memRead_of_lt (m : Mem) {a : Nat} (h : a < 4096) : memRead m a = some (memByte m a) := if_pos h

theorem memRead_of_ge (m : Mem) {a : Nat} (h : 4096 ≤ a) : memRead m a = none := if_neg (Nat.not_lt.mpr h)

/-- A two-byte read in range is the big-endian word of its bytes (R52). -/
theorem memRead2_of_lt (m : Mem) {a : Nat} (h : a + 1 < 4096) :
    memRead2 m a = some (assembleWord (memByte m a) (memByte m (a + 1))) := by
  simp [memRead2, memRead_of_lt m h, memRead_of_lt m (Nat.lt_of_succ_lt h)]

theorem memRead2_eq_none (m : Mem) {a : Nat} (h : 4096 ≤ a + 1) : memRead2 m a = none := by
  simp [memRead2, memRead_of_ge m h]

/-- Consecutive bytes in range: all of them are read (R152). -/
theorem readBytes_of_le (m : Mem) (n a : Nat) (h : a + n ≤ 4096 ∨ n = 0) :
    readBytes m a n = some ((List.range n).map fun r => memByte m (a + r)) := by
  induction n generalizing a with
  | zero => rfl
  | succ n ih =>
    have h1 : a < 4096 := by omega
    have h2 := ih (a + 1) (by omega)
    rw [readBytes, memRead_of_lt m h1, h2]
    simp [List.range_succ_eq_map, Function.comp_def, Nat.add_assoc, Nat.add_comm 1]

/-! ### Writes -/

theorem memWfFrom_mono {lo lo' : Nat} {m : Mem} (h : lo' ≤ lo) (hm : memWfFrom lo m = true) : memWfFrom lo' m = true := by
  cases m with
  | nil => rfl
  | cons c m => obtain ⟨k, b⟩ := c; simp [memWfFrom] at hm ⊢; exact ⟨⟨by omega, hm.1.2⟩, hm.2⟩

theorem memByte_of_lt_from {lo a : Nat} {m : Mem} (hm : memWfFrom lo m = true) (h : a < lo) :
    memByte m a = Config.memInit := by
  induction m generalizing lo with
  | nil => rfl
  | cons c m ih =>
    obtain ⟨k, b⟩ := c
    simp [memWfFrom] at hm
    have hk : k ≠ a := by omega
    simp [memByte, hk]
    exact ih hm.2 (by omega)

theorem memWfFrom_memInsert {lo a : Nat} {m : Mem} (b : Byte) (hm : memWfFrom lo m = true) (hlo : lo ≤ a)
    (ha : a < 4096) : memWfFrom lo (memInsert m a b) = true := by
  induction m generalizing lo with
  | nil => unfold memInsert; split <;> simp_all [memWfFrom]
  | cons c m ih =>
    obtain ⟨k, d⟩ := c
    have hm' := hm
    simp [memWfFrom] at hm
    unfold memInsert
    split
    · split
      · exact hm'
      · simp_all [memWfFrom]
    · split
      · subst k
        split
        · exact memWfFrom_mono (by omega) hm.2
        · simp_all [memWfFrom]
      · simp [memWfFrom, hm, ih hm.2 (by omega)]

/-- Inserting a byte in canonical memory: it is read back at its address, and every other address is untouched. -/
theorem memByte_memInsert {lo a : Nat} {m : Mem} (b : Byte) (hm : memWfFrom lo m = true) (a' : Nat) :
    memByte (memInsert m a b) a' = if a' = a then b else memByte m a' := by
  induction m generalizing lo with
  | nil =>
    unfold memInsert
    split
    · next hb => subst hb; simp [memByte]
    · simp [memByte, eq_comm]
  | cons c m ih =>
    obtain ⟨k, d⟩ := c
    have hm' := hm
    simp [memWfFrom] at hm
    unfold memInsert
    split
    · next hak =>
      have hfresh : memByte ((k, d) :: m) a = Config.memInit :=
        memByte_of_lt_from (lo := k) (by simp [memWfFrom, hm]) hak
      split
      · next hb =>
        subst hb
        split
        · next e => rw [e, hfresh]
        · rfl
      · rw [memByte]; simp [eq_comm]
    · split
      · next hak =>
        subst k
        have hfresh : memByte m a = Config.memInit := memByte_of_lt_from hm.2 (by omega)
        split
        · next hb =>
          subst hb
          split
          · next e => rw [e, hfresh]
          · next e => simp [memByte, Ne.symm e]
        · simp only [memByte, eq_comm (a := a')]
          split <;> rfl
      · next hne =>
        simp only [memByte, ih hm.2]
        split
        · next hk => rw [if_neg (by omega)]
        · rfl

/-- Every store keeps the canonical form. -/
theorem memWf_memWrite {m : Mem} (a : Nat) (b : Byte) (hm : memWf m = true) : memWf (memWrite m a b) = true := by
  unfold memWrite
  split
  · next h => exact memWfFrom_memInsert b hm (Nat.zero_le _) h
  · exact hm

/-- A read after a store. -/
theorem memByte_memWrite {m : Mem} {a : Nat} (b : Byte) (hm : memWf m = true) (ha : a < 4096) (a' : Nat) :
    memByte (memWrite m a b) a' = if a' = a then b else memByte m a' := by
  simp only [memWrite, Config.memSize, ha, if_true]
  exact memByte_memInsert b hm a'

theorem memWf_memWriteBytes {m : Mem} (a : Nat) (bs : List Byte) (hm : memWf m = true) :
    memWf (memWriteBytes m a bs) = true := by
  induction bs generalizing m a with
  | nil => exact hm
  | cons b bs ih => exact ih (a + 1) (memWf_memWrite a b hm)

/-- A read after storing consecutive bytes: the stored byte inside, the old byte outside. -/
theorem memByte_memWriteBytes {m : Mem} (a : Nat) (bs : List Byte) (hm : memWf m = true) (h : a + bs.length ≤ 4096)
    (a' : Nat) : memByte (memWriteBytes m a bs) a' =
      if a ≤ a' ∧ a' < a + bs.length then bs.getD (a' - a) 0x00#8 else memByte m a' := by
  induction bs generalizing m a with
  | nil => simp [memWriteBytes]
  | cons b bs ih =>
    simp only [List.length_cons] at h
    rw [memWriteBytes, ih (a + 1) (memWf_memWrite a b hm) (by omega), memByte_memWrite b hm (by omega)]
    by_cases e : a' = a
    · subst e; simp
    · by_cases hin : a + 1 ≤ a' ∧ a' < a + 1 + bs.length
      · rw [if_pos hin, if_pos (by simp only [List.length_cons]; omega)]
        obtain ⟨d, rfl⟩ : ∃ d, a' = a + 1 + d := ⟨a' - (a + 1), by omega⟩
        rw [show a + 1 + d - a = d + 1 by omega, show a + 1 + d - (a + 1) = d by omega, List.getD_cons_succ]
      · rw [if_neg hin, if_neg e, if_neg (by simp only [List.length_cons]; omega)]

/-- The canonical form is one: canonical memories that read alike everywhere are the same list. -/
theorem mem_ext_from {lo : Nat} {m m' : Mem} (hm : memWfFrom lo m = true) (hm' : memWfFrom lo m' = true)
    (h : ∀ a, memByte m a = memByte m' a) : m = m' := by
  induction m generalizing lo m' with
  | nil =>
    cases m' with
    | nil => rfl
    | cons c m' =>
      obtain ⟨k, b⟩ := c
      simp [memWfFrom] at hm'
      have := h k
      simp [memByte] at this
      exact absurd this.symm hm'.1.2
  | cons c m ih =>
    obtain ⟨k, b⟩ := c
    simp [memWfFrom] at hm
    cases m' with
    | nil =>
      have := h k
      simp [memByte] at this
      exact absurd this hm.1.2
    | cons c' m' =>
      obtain ⟨k', b'⟩ := c'
      simp [memWfFrom] at hm'
      have hk : k = k' := by
        rcases Nat.lt_trichotomy k k' with hlt | heq | hlt
        · have := h k
          rw [memByte_of_lt_from (m := (k', b') :: m') (lo := k') (by simp [memWfFrom, hm']) hlt] at this
          simp [memByte] at this
          exact absurd this hm.1.2
        · exact heq
        · have := h k'
          rw [memByte_of_lt_from (m := (k, b) :: m) (lo := k) (by simp [memWfFrom, hm]) hlt] at this
          simp [memByte] at this
          exact absurd this.symm hm'.1.2
      subst hk
      have hb : b = b' := by simpa [memByte] using h k
      subst hb
      have : m = m' := ih hm.2 hm'.2 fun a => by
        by_cases e : k = a
        · subst e
          rw [memByte_of_lt_from hm.2 (by omega), memByte_of_lt_from hm'.2 (by omega)]
        · simpa [memByte, e] using h a
      rw [this]

/-- Canonical memories that read alike everywhere are equal. -/
theorem mem_ext {m m' : Mem} (hm : memWf m = true) (hm' : memWf m' = true) (h : ∀ a, memByte m a = memByte m' a) :
    m = m' := mem_ext_from hm hm' h

end Sys2Proof.Machine
end

