-- ==== Sys2Proof/Laws/PerInstr.lean ====
section
/-! SUPPORT. Facts stated for each instruction, one lemma per constructor. TypeNibble: the top nibble of an
instruction's word is the type of its row (`30_encoding.md` R81, R88). -/

namespace Sys2Proof.Laws.TypeNibble

/-- The word of the instruction carries the type that selects it. -/
def Statement (i : Instr) : Prop := (encode i).extractLsb' 12 4 = i.opType

theorem cls (low : Imm12) : Statement (.cls low) := (fields_imm12 _ low).1
theorem jp (nnn : Imm12) : Statement (.jp nnn) := (fields_imm12 _ nnn).1
theorem illegal2 (low : Imm12) : Statement (.illegal2 low) := (fields_imm12 _ low).1
theorem illegal3 (low : Imm12) : Statement (.illegal3 low) := (fields_imm12 _ low).1
theorem illegal4 (low : Imm12) : Statement (.illegal4 low) := (fields_imm12 _ low).1
theorem illegal5 (low : Imm12) : Statement (.illegal5 low) := (fields_imm12 _ low).1
theorem ldV (x : Nibble) (nn : Byte) : Statement (.ldV x nn) := (fields_x_nn _ x nn).1
theorem addV (x : Nibble) (nn : Byte) : Statement (.addV x nn) := (fields_x_nn _ x nn).1
theorem illegal8 (low : Imm12) : Statement (.illegal8 low) := (fields_imm12 _ low).1
theorem illegal9 (low : Imm12) : Statement (.illegal9 low) := (fields_imm12 _ low).1
theorem ldI (nnn : Imm12) : Statement (.ldI nnn) := (fields_imm12 _ nnn).1
theorem illegalB (low : Imm12) : Statement (.illegalB low) := (fields_imm12 _ low).1
theorem illegalC (low : Imm12) : Statement (.illegalC low) := (fields_imm12 _ low).1
theorem drw (x y n : Nibble) : Statement (.drw x y n) := (fields_x_y_n _ x y n).1
theorem illegalE (low : Imm12) : Statement (.illegalE low) := (fields_imm12 _ low).1
theorem illegalF (low : Imm12) : Statement (.illegalF low) := (fields_imm12 _ low).1

end Sys2Proof.Laws.TypeNibble
end

