-- ==== Sys2Proof/Laws/State.lean ====
section
/-! SUPPORT. One lemma per field per update of the state, so that no proof unfolds a record update. -/

namespace Sys2Proof.Machine

/-! ### setV -/

@[simp] theorem State.setV_v (s : State) (x : Nibble) (b : Byte) : (s.setV x b).v = s.v.set x.toNat b x.isLt := rfl
@[simp] theorem State.setV_i (s : State) (x : Nibble) (b : Byte) : (s.setV x b).i = s.i := rfl
@[simp] theorem State.setV_pc (s : State) (x : Nibble) (b : Byte) : (s.setV x b).pc = s.pc := rfl
@[simp] theorem State.setV_stack (s : State) (x : Nibble) (b : Byte) : (s.setV x b).stack = s.stack := rfl
@[simp] theorem State.setV_mem (s : State) (x : Nibble) (b : Byte) : (s.setV x b).mem = s.mem := rfl
@[simp] theorem State.setV_fb (s : State) (x : Nibble) (b : Byte) : (s.setV x b).fb = s.fb := rfl
@[simp] theorem State.setV_runState (s : State) (x : Nibble) (b : Byte) : (s.setV x b).runState = s.runState := rfl
@[simp] theorem State.setV_faultCause (s : State) (x : Nibble) (b : Byte) : (s.setV x b).faultCause = s.faultCause := rfl
@[simp] theorem State.setV_faultInfo (s : State) (x : Nibble) (b : Byte) : (s.setV x b).faultInfo = s.faultInfo := rfl
@[simp] theorem State.setV_inputs (s : State) (x : Nibble) (b : Byte) : (s.setV x b).inputs = s.inputs := rfl

/-! ### setI -/

@[simp] theorem State.setI_v (s : State) (w : Word) : (s.setI w).v = s.v := rfl
@[simp] theorem State.setI_i (s : State) (w : Word) : (s.setI w).i = w := rfl
@[simp] theorem State.setI_pc (s : State) (w : Word) : (s.setI w).pc = s.pc := rfl
@[simp] theorem State.setI_stack (s : State) (w : Word) : (s.setI w).stack = s.stack := rfl
@[simp] theorem State.setI_mem (s : State) (w : Word) : (s.setI w).mem = s.mem := rfl
@[simp] theorem State.setI_fb (s : State) (w : Word) : (s.setI w).fb = s.fb := rfl
@[simp] theorem State.setI_runState (s : State) (w : Word) : (s.setI w).runState = s.runState := rfl
@[simp] theorem State.setI_faultCause (s : State) (w : Word) : (s.setI w).faultCause = s.faultCause := rfl
@[simp] theorem State.setI_faultInfo (s : State) (w : Word) : (s.setI w).faultInfo = s.faultInfo := rfl
@[simp] theorem State.setI_inputs (s : State) (w : Word) : (s.setI w).inputs = s.inputs := rfl

/-! ### setPc -/

@[simp] theorem State.setPc_v (s : State) (w : Word) : (s.setPc w).v = s.v := rfl
@[simp] theorem State.setPc_i (s : State) (w : Word) : (s.setPc w).i = s.i := rfl
@[simp] theorem State.setPc_pc (s : State) (w : Word) : (s.setPc w).pc = w := rfl
@[simp] theorem State.setPc_stack (s : State) (w : Word) : (s.setPc w).stack = s.stack := rfl
@[simp] theorem State.setPc_mem (s : State) (w : Word) : (s.setPc w).mem = s.mem := rfl
@[simp] theorem State.setPc_fb (s : State) (w : Word) : (s.setPc w).fb = s.fb := rfl
@[simp] theorem State.setPc_runState (s : State) (w : Word) : (s.setPc w).runState = s.runState := rfl
@[simp] theorem State.setPc_faultCause (s : State) (w : Word) : (s.setPc w).faultCause = s.faultCause := rfl
@[simp] theorem State.setPc_faultInfo (s : State) (w : Word) : (s.setPc w).faultInfo = s.faultInfo := rfl
@[simp] theorem State.setPc_inputs (s : State) (w : Word) : (s.setPc w).inputs = s.inputs := rfl

/-! ### setFb -/

@[simp] theorem State.setFb_v (s : State) (g : Framebuffer) : (s.setFb g).v = s.v := rfl
@[simp] theorem State.setFb_i (s : State) (g : Framebuffer) : (s.setFb g).i = s.i := rfl
@[simp] theorem State.setFb_pc (s : State) (g : Framebuffer) : (s.setFb g).pc = s.pc := rfl
@[simp] theorem State.setFb_stack (s : State) (g : Framebuffer) : (s.setFb g).stack = s.stack := rfl
@[simp] theorem State.setFb_mem (s : State) (g : Framebuffer) : (s.setFb g).mem = s.mem := rfl
@[simp] theorem State.setFb_fb (s : State) (g : Framebuffer) : (s.setFb g).fb = g := rfl
@[simp] theorem State.setFb_runState (s : State) (g : Framebuffer) : (s.setFb g).runState = s.runState := rfl
@[simp] theorem State.setFb_faultCause (s : State) (g : Framebuffer) : (s.setFb g).faultCause = s.faultCause := rfl
@[simp] theorem State.setFb_faultInfo (s : State) (g : Framebuffer) : (s.setFb g).faultInfo = s.faultInfo := rfl
@[simp] theorem State.setFb_inputs (s : State) (g : Framebuffer) : (s.setFb g).inputs = s.inputs := rfl

/-! ### setCollision -/

@[simp] theorem State.setCollision_v (s : State) (c : Bool) : (s.setCollision c).v = s.v.set 15 (collisionByte c) := rfl
@[simp] theorem State.setCollision_i (s : State) (c : Bool) : (s.setCollision c).i = s.i := rfl
@[simp] theorem State.setCollision_pc (s : State) (c : Bool) : (s.setCollision c).pc = s.pc := rfl
@[simp] theorem State.setCollision_stack (s : State) (c : Bool) : (s.setCollision c).stack = s.stack := rfl
@[simp] theorem State.setCollision_mem (s : State) (c : Bool) : (s.setCollision c).mem = s.mem := rfl
@[simp] theorem State.setCollision_fb (s : State) (c : Bool) : (s.setCollision c).fb = s.fb := rfl
@[simp] theorem State.setCollision_runState (s : State) (c : Bool) : (s.setCollision c).runState = s.runState := rfl
@[simp] theorem State.setCollision_faultCause (s : State) (c : Bool) : (s.setCollision c).faultCause = s.faultCause := rfl
@[simp] theorem State.setCollision_faultInfo (s : State) (c : Bool) : (s.setCollision c).faultInfo = s.faultInfo := rfl
@[simp] theorem State.setCollision_inputs (s : State) (c : Bool) : (s.setCollision c).inputs = s.inputs := rfl

/-! ### enterFaulted -/

@[simp] theorem State.enterFaulted_v (s : State) (c : FaultCause) (w : Word) : (s.enterFaulted c w).v = s.v := rfl
@[simp] theorem State.enterFaulted_i (s : State) (c : FaultCause) (w : Word) : (s.enterFaulted c w).i = s.i := rfl
@[simp] theorem State.enterFaulted_pc (s : State) (c : FaultCause) (w : Word) : (s.enterFaulted c w).pc = s.pc := rfl
@[simp] theorem State.enterFaulted_stack (s : State) (c : FaultCause) (w : Word) : (s.enterFaulted c w).stack = s.stack := rfl
@[simp] theorem State.enterFaulted_mem (s : State) (c : FaultCause) (w : Word) : (s.enterFaulted c w).mem = s.mem := rfl
@[simp] theorem State.enterFaulted_fb (s : State) (c : FaultCause) (w : Word) : (s.enterFaulted c w).fb = s.fb := rfl
@[simp] theorem State.enterFaulted_runState (s : State) (c : FaultCause) (w : Word) : (s.enterFaulted c w).runState = .faulted := rfl
@[simp] theorem State.enterFaulted_faultCause (s : State) (c : FaultCause) (w : Word) : (s.enterFaulted c w).faultCause = c := rfl
@[simp] theorem State.enterFaulted_faultInfo (s : State) (c : FaultCause) (w : Word) : (s.enterFaulted c w).faultInfo = w := rfl
@[simp] theorem State.enterFaulted_inputs (s : State) (c : FaultCause) (w : Word) : (s.enterFaulted c w).inputs = s.inputs := rfl

/-! ### enterStopped -/

@[simp] theorem State.enterStopped_v (s : State) : s.enterStopped.v = s.v := rfl
@[simp] theorem State.enterStopped_i (s : State) : s.enterStopped.i = s.i := rfl
@[simp] theorem State.enterStopped_pc (s : State) : s.enterStopped.pc = s.pc := rfl
@[simp] theorem State.enterStopped_stack (s : State) : s.enterStopped.stack = s.stack := rfl
@[simp] theorem State.enterStopped_mem (s : State) : s.enterStopped.mem = s.mem := rfl
@[simp] theorem State.enterStopped_fb (s : State) : s.enterStopped.fb = s.fb := rfl
@[simp] theorem State.enterStopped_runState (s : State) : s.enterStopped.runState = .stopped := rfl
@[simp] theorem State.enterStopped_faultCause (s : State) : s.enterStopped.faultCause = s.faultCause := rfl
@[simp] theorem State.enterStopped_faultInfo (s : State) : s.enterStopped.faultInfo = s.faultInfo := rfl
@[simp] theorem State.enterStopped_inputs (s : State) : s.enterStopped.inputs = s.inputs := rfl

/-! ### applyReset -/

@[simp] theorem State.applyReset_v (s : State) : s.applyReset.v = Vector.replicate 16 0x00#8 := rfl
@[simp] theorem State.applyReset_i (s : State) : s.applyReset.i = 0x0000#16 := rfl
@[simp] theorem State.applyReset_pc (s : State) : s.applyReset.pc = 0x200#16 := rfl
@[simp] theorem State.applyReset_stack (s : State) : s.applyReset.stack = [] := rfl
@[simp] theorem State.applyReset_mem (s : State) : s.applyReset.mem = s.mem := rfl
@[simp] theorem State.applyReset_fb (s : State) : s.applyReset.fb = allOff := rfl
@[simp] theorem State.applyReset_runState (s : State) : s.applyReset.runState = .running := rfl
@[simp] theorem State.applyReset_faultCause (s : State) : s.applyReset.faultCause = .none := rfl
@[simp] theorem State.applyReset_faultInfo (s : State) : s.applyReset.faultInfo = 0x0000#16 := rfl
@[simp] theorem State.applyReset_inputs (s : State) : s.applyReset.inputs = s.inputs := rfl

/-! ### withInputs -/

@[simp] theorem State.withInputs_v (s : State) (p : Inputs) : (s.withInputs p).v = s.v := rfl
@[simp] theorem State.withInputs_i (s : State) (p : Inputs) : (s.withInputs p).i = s.i := rfl
@[simp] theorem State.withInputs_pc (s : State) (p : Inputs) : (s.withInputs p).pc = s.pc := rfl
@[simp] theorem State.withInputs_stack (s : State) (p : Inputs) : (s.withInputs p).stack = s.stack := rfl
@[simp] theorem State.withInputs_mem (s : State) (p : Inputs) : (s.withInputs p).mem = s.mem := rfl
@[simp] theorem State.withInputs_fb (s : State) (p : Inputs) : (s.withInputs p).fb = s.fb := rfl
@[simp] theorem State.withInputs_runState (s : State) (p : Inputs) : (s.withInputs p).runState = s.runState := rfl
@[simp] theorem State.withInputs_faultCause (s : State) (p : Inputs) : (s.withInputs p).faultCause = s.faultCause := rfl
@[simp] theorem State.withInputs_faultInfo (s : State) (p : Inputs) : (s.withInputs p).faultInfo = s.faultInfo := rfl
@[simp] theorem State.withInputs_inputs (s : State) (p : Inputs) : (s.withInputs p).inputs = p := rfl

/-! ### storeAtPc -/

@[simp] theorem State.storeAtPc_v (s : State) (w : Word) : (s.storeAtPc w).v = s.v := rfl
@[simp] theorem State.storeAtPc_i (s : State) (w : Word) : (s.storeAtPc w).i = s.i := rfl
@[simp] theorem State.storeAtPc_pc (s : State) (w : Word) : (s.storeAtPc w).pc = s.pc := rfl
@[simp] theorem State.storeAtPc_stack (s : State) (w : Word) : (s.storeAtPc w).stack = s.stack := rfl
@[simp] theorem State.storeAtPc_mem (s : State) (w : Word) : (s.storeAtPc w).mem = memWriteBytes s.mem s.pc.toNat w.bytes := rfl
@[simp] theorem State.storeAtPc_fb (s : State) (w : Word) : (s.storeAtPc w).fb = s.fb := rfl
@[simp] theorem State.storeAtPc_runState (s : State) (w : Word) : (s.storeAtPc w).runState = s.runState := rfl
@[simp] theorem State.storeAtPc_faultCause (s : State) (w : Word) : (s.storeAtPc w).faultCause = s.faultCause := rfl
@[simp] theorem State.storeAtPc_faultInfo (s : State) (w : Word) : (s.storeAtPc w).faultInfo = s.faultInfo := rfl
@[simp] theorem State.storeAtPc_inputs (s : State) (w : Word) : (s.storeAtPc w).inputs = s.inputs := rfl

/-! ### loaderStore, which writes memory only -/

@[simp] theorem State.loaderStore_v (s : State) : s.loaderStore.v = s.v := by
  unfold State.loaderStore; split <;> rfl
@[simp] theorem State.loaderStore_i (s : State) : s.loaderStore.i = s.i := by
  unfold State.loaderStore; split <;> rfl
@[simp] theorem State.loaderStore_pc (s : State) : s.loaderStore.pc = s.pc := by
  unfold State.loaderStore; split <;> rfl
@[simp] theorem State.loaderStore_stack (s : State) : s.loaderStore.stack = s.stack := by
  unfold State.loaderStore; split <;> rfl
@[simp] theorem State.loaderStore_mem (s : State) : s.loaderStore.mem =
    if s.inputs.ldWe then memWrite s.mem s.inputs.ldAddr.toNat s.inputs.ldData else s.mem := by
  unfold State.loaderStore; split <;> rfl
@[simp] theorem State.loaderStore_fb (s : State) : s.loaderStore.fb = s.fb := by
  unfold State.loaderStore; split <;> rfl
@[simp] theorem State.loaderStore_runState (s : State) : s.loaderStore.runState = s.runState := by
  unfold State.loaderStore; split <;> rfl
@[simp] theorem State.loaderStore_faultCause (s : State) : s.loaderStore.faultCause = s.faultCause := by
  unfold State.loaderStore; split <;> rfl
@[simp] theorem State.loaderStore_faultInfo (s : State) : s.loaderStore.faultInfo = s.faultInfo := by
  unfold State.loaderStore; split <;> rfl
@[simp] theorem State.loaderStore_inputs (s : State) : s.loaderStore.inputs = s.inputs := by
  unfold State.loaderStore; split <;> rfl

/-! ### Reading a general register back -/

@[simp] theorem State.getV_setV_same (s : State) (x : Nibble) (b : Byte) : (s.setV x b).getV x = b := by
  simp [State.getV]

theorem State.getV_setV_other (s : State) {x j : Nibble} (b : Byte) (h : j ≠ x) : (s.setV x b).getV j = s.getV j := by
  have hne : x.toNat ≠ j.toNat := fun e => h (BitVec.eq_of_toNat_eq e.symm)
  simp [State.getV, hne]

/-- Reading any register after a write to one (R20, R21). -/
theorem State.getV_setV (s : State) (x j : Nibble) (b : Byte) :
    (s.setV x b).getV j = if j = x then b else s.getV j := by
  split
  · next h => subst h; simp
  · next h => exact s.getV_setV_other b h

/-- Reading any register after the write of the collision flag (R158). -/
theorem State.getV_setCollision (s : State) (c : Bool) (j : Nibble) :
    (s.setCollision c).getV j = if j = vf then collisionByte c else s.getV j := s.getV_setV vf j _

@[simp] theorem State.getV_setFb (s : State) (g : Framebuffer) (j : Nibble) : (s.setFb g).getV j = s.getV j := rfl
@[simp] theorem State.getV_setPc (s : State) (w : Word) (j : Nibble) : (s.setPc w).getV j = s.getV j := rfl
@[simp] theorem State.getV_setI (s : State) (w : Word) (j : Nibble) : (s.setI w).getV j = s.getV j := rfl

end Sys2Proof.Machine
end

