-- ==== Sys2Proof/Laws/Step.lean ====
section
/-! SUPPORT. What a shared operation, an instruction and a step can do, each said once. -/

namespace Sys2Proof.Machine

/-! ### Shared operations -/

theorem State.commit_eq (s : State) (w : Word) : s.commit w = .next (s.setPc w) := rfl

theorem State.advance_eq (s : State) : s.advance = .next (s.setPc (s.pc + 2#16)) := rfl

theorem State.raise_eq (s : State) (c : FaultCause) (w : Word) : s.raise c w = .next (s.enterFaulted c w) := rfl

theorem spriteInRange_iff (i : Word) (n : Nibble) : spriteInRange i n = true ↔ i.toNat + n.toNat ≤ 4096 := by
  simp [spriteInRange]

/-- A sprite in range is read in full (R152, R153). -/
theorem readSprite_of_inRange (m : Mem) {i : Word} {n : Nibble} (h : spriteInRange i n = true) :
    readSprite m i n = some ((List.range n.toNat).map fun r => memByte m (i.toNat + r)) :=
  readBytes_of_le m n.toNat i.toNat (.inl ((spriteInRange_iff i n).1 h))

theorem State.canFetch_iff (s : State) : s.canFetch = true ↔ s.pc.toNat + 1 < 4096 := by
  simp [State.canFetch]

/-- A fetch in range reads the two bytes at PC, big-endian (R111). -/
theorem State.fetchWord_of_canFetch {s : State} (h : s.canFetch = true) :
    s.fetchWord = some (assembleWord (memByte s.mem s.pc.toNat) (memByte s.mem (s.pc.toNat + 1))) :=
  memRead2_of_lt s.mem ((s.canFetch_iff).1 h)

theorem startColumn_toNat (b : Byte) : (startColumn b).toNat = b.toNat % 64 := by simp [startColumn]

theorem startRow_toNat (b : Byte) : (startRow b).toNat = b.toNat % 32 := by simp [startRow]

theorem zextImm_toNat (n : Imm12) : (zextImm n).toNat = n.toNat := by
  simp [zextImm]
  have := n.isLt
  omega

/-! ### An instruction -/

/-- What a draw in range does (R150). -/
theorem exec_drw_inRange {x y n : Nibble} {s : State} (h : spriteInRange s.i n = true) :
    exec (.drw x y n) s = .next ((s.drawn x y ((List.range n.toNat).map fun r => memByte s.mem (s.i.toNat + r))).setPc
      (s.pc + 2#16)) := by
  simp only [exec, execDrw, h, if_true, readSprite_of_inRange s.mem h]
  rfl

/-- What a draw out of range does (R153). -/
theorem exec_drw_outOfRange {x y n : Nibble} {s : State} (h : spriteInRange s.i n = false) :
    exec (.drw x y n) s = .next (s.enterFaulted .spriteOutOfRange (encode (.drw x y n))) := by
  simp only [exec, execDrw, h]
  rfl

/-- The state an instruction leaves, one line per constructor. -/
theorem exec_inversion {i : Instr} {s t : State} (h : exec i s = .next t) :
    match i with
    | .cls _ => t = (s.setFb allOff).setPc (s.pc + 2#16)
    | .jp nnn => t = s.setPc (zextImm nnn)
    | .ldV x nn => t = (s.setV x nn).setPc (s.pc + 2#16)
    | .addV x nn => t = (s.setV x (s.getV x + nn)).setPc (s.pc + 2#16)
    | .ldI nnn => t = (s.setI (zextImm nnn)).setPc (s.pc + 2#16)
    | .drw x y n =>
      (spriteInRange s.i n = true ∧
        t = (s.drawn x y ((List.range n.toNat).map fun r => memByte s.mem (s.i.toNat + r))).setPc (s.pc + 2#16)) ∨
      (spriteInRange s.i n = false ∧ t = s.enterFaulted .spriteOutOfRange (encode (.drw x y n)))
    | i => t = s.enterFaulted .unhandledInstruction (encode i) := by
  cases i with
  | drw x y n =>
    cases hr : spriteInRange s.i n
    · rw [exec_drw_outOfRange hr] at h
      injection h with h
      exact .inr ⟨hr, h.symm⟩
    · rw [exec_drw_inRange hr] at h
      injection h with h
      exact .inl ⟨hr, h.symm⟩
  | _ => injection h with h; exact h.symm

/-- Entering FAULTED changes the status registers and nothing else (R187). -/
theorem State.enterFaulted_faultedFrom (s : State) (c : FaultCause) (w : Word) :
    s.FaultedFrom (s.enterFaulted c w) c w := by
  constructor <;> simp [State.getV]

/-- An instruction that answers a next state either completes, keeping what no instruction changes, or faults in one of two
ways (R115). -/
theorem exec_completes_or_faults {i : Instr} {s t : State} (h : exec i s = .next t) :
    s.Kept t ∨
    (i.handled = false ∧ t = s.enterFaulted .unhandledInstruction (encode i)) ∨
    (∃ x y n, i = .drw x y n ∧ spriteInRange s.i n = false ∧ t = s.enterFaulted .spriteOutOfRange (encode i)) := by
  have hi := exec_inversion h
  cases i with
  | drw x y n =>
    rcases hi with ⟨_, rfl⟩ | ⟨hr, rfl⟩
    · left; constructor <;> simp [State.drawn]
    · exact .inr (.inr ⟨x, y, n, rfl, hr, rfl⟩)
  | cls | jp | ldV | addV | ldI => left; simp only at hi; subst hi; constructor <;> simp
  | _ => exact .inr (.inl ⟨rfl, hi⟩)

/-! ### A step -/

/-- No instruction cycle starts unless the state is ready, and then one does (R110, R116, R192, R196). -/
theorem State.boundary_eq_none_iff (s : State) : s.boundary = none ↔ s.Ready := by
  unfold State.boundary
  constructor
  · intro h
    split at h
    · cases h
    · split at h
      · cases h
      · split at h
        · cases h
        · split at h
          · cases h
          · simp_all; constructor <;> simp_all
  · rintro ⟨h1, h2, h3, h4⟩
    simp [h1, h2, h3, h4]

/-- A ready state's step is an instruction cycle (R110). -/
theorem State.Ready.step_eq {s : State} (h : s.Ready) : step s = cycle s := by
  rw [step, (s.boundary_eq_none_iff).2 h]

/-- Everything a step that answers a next state can have done. -/
theorem step_inversion {s t : State} (h : step s = .next t) :
    (s.inputs.rst = true ∧ t = s.applyReset.loaderStore) ∨
    (s.inputs.rst = false ∧ (s.runState ≠ .running ∨ s.inputs.stepEn = false) ∧ t = s) ∨
    (s.inputs.rst = false ∧ s.runState = .running ∧ s.inputs.stepEn = true ∧ s.inputs.haltReq = true ∧
      t = s.enterStopped) ∨
    (s.Ready ∧ s.canFetch = false ∧ t = s.enterFaulted .fetchOutOfRange 0x0000#16) ∨
    (s.Ready ∧ s.canFetch = true ∧
      exec (decodeWord (assembleWord (memByte s.mem s.pc.toNat) (memByte s.mem (s.pc.toNat + 1)))) s = .next t) := by
  by_cases hr : s.Ready
  · rw [hr.step_eq, cycle] at h
    cases hc : s.canFetch
    · rw [hc] at h
      injection h with h
      exact .inr (.inr (.inr (.inl ⟨hr, rfl, h.symm⟩)))
    · rw [hc, if_pos rfl, State.fetchWord_of_canFetch hc] at h
      exact .inr (.inr (.inr (.inr ⟨hr, rfl, h⟩)))
  · have hb : s.boundary ≠ none := fun e => hr ((s.boundary_eq_none_iff).1 e)
    rw [step] at h
    unfold State.boundary at h hb
    cases h1 : s.inputs.rst
    · simp only [h1, Bool.false_eq_true, if_false] at h hb
      by_cases h2 : s.runState = .running
      · simp only [h2, ne_eq, not_true, if_false] at h hb
        cases h3 : s.inputs.stepEn
        · simp [h3] at h; exact .inr (.inl ⟨rfl, .inr rfl, h.symm⟩)
        · cases h4 : s.inputs.haltReq
          · simp [h3, h4] at hb
          · simp [h3, h4] at h; exact .inr (.inr (.inl ⟨rfl, h2, rfl, rfl, h.symm⟩))
      · simp [h2] at h; exact .inr (.inl ⟨rfl, .inl h2, h.symm⟩)
    · simp [h1] at h
      exact .inl ⟨rfl, h.symm⟩

/-- A step with `rst` asserted (R220, R230). -/
theorem step_of_rst {s : State} (h : s.inputs.rst = true) : step s = .next s.applyReset.loaderStore := by
  simp [step, State.boundary, h]

/-- The step of a halted core without reset changes nothing (R116). -/
theorem step_of_halted {s : State} (h : s.inputs.rst = false) (hs : s.runState ≠ .running) : step s = .next s := by
  simp [step, State.boundary, h, hs]

/-! ### A run -/

/-- What the inputs cannot change and every step without reset keeps holds at the end of every run without reset. -/
theorem runWith_induction (P : State → Prop) (hinputs : ∀ s p, P s → P (s.withInputs p))
    (hstep : ∀ s t, P s → s.inputs.rst = false → step s = .next t → P t) (ps : List Inputs) (s t : State)
    (hps : ∀ p ∈ ps, p.rst = false) (hs : P s) (hr : runWith ps s = .next t) : P t := by
  induction ps generalizing s with
  | nil => injection hr with hr; subst hr; exact hs
  | cons p ps ih =>
    rw [runWith] at hr
    split at hr
    · next u hu => exact ih u (fun q hq => hps q (.tail _ hq)) (hstep _ u (hinputs s p hs) (hps p (.head _)) hu) hr
    · cases hr
    · cases hr

/-- A state that steps to itself is where every run from it ends. -/
theorem run_fixedPoint (M : Host.Core) (k : Nat) (s : M.State) (h : M.step s = .next s) : M.run k s = .next s := by
  induction k with
  | zero => rfl
  | succ k ih => rw [Host.Core.run, h]; exact ih

end Sys2Proof.Machine
end

