-- ==== Sys2Proof/Tests/Slice0.lean ====
section
/-! SUPPORT. Checks of the model against `spec/`'s own words and vectors (`95_test_vectors.md`), and, for every statement with
hypotheses, a state and operands that meet them. -/

namespace Sys2Proof.Tests

open Sys2Proof.Machine

/-! ### Helpers -/

/-- The state of an outcome, if it is a next state. -/
def after (o : Host.Outcome State Fault Refusal) : Option State :=
  match o with
  | .next t => some t
  | .fault _ => none
  | .refused _ => none

/-- The reset state with bytes placed from an address. -/
def placed (a : Nat) (bs : List Byte) : State := { State.reset with mem := memWriteBytes [] a bs }

/-- The reset state with an instruction word at 0x200. -/
def word (w : Word) : State := placed 0x200 w.bytes

/-- The reset state with a sprite at 0x300 and I pointing to it. -/
def sprite (bs : List Byte) : State := { placed 0x300 bs with i := 0x300#16 }

/-- `s` with one register set. -/
def withV (s : State) (x : Nibble) (b : Byte) : State := s.setV x b

/-- `s` with some pixels, (row, column), turned on. -/
def lit (s : State) (on : List (Nat × Nat)) : State :=
  { s with fb := on.foldl (fun fb p => setPixel fb p.1 p.2 true) s.fb }

/-- Exactly the listed pixels of the listed positions are on. -/
def shows (o : Host.Outcome State Fault Refusal) (positions on : List (Nat × Nat)) : Bool :=
  match after o with
  | some t => positions.all fun p => pixel t.fb p.1 p.2 == on.contains p
  | none => false

/-- The host's view of a next state: run state, cause, information, and PC. -/
def status (o : Host.Outcome State Fault Refusal) : Option (RunState × FaultCause × Word × Word) :=
  (after o).map fun t => (t.runState, t.faultCause, t.faultInfo, t.pc)

/-! ### Operand ranges: an ill-formed line for each check (R94) -/

theorem test_ill_formed_address : (Source.jp 0x1000).wellFormed = false := by decide
theorem test_ill_formed_register_x : (Source.ldV 16 0).wellFormed = false := by decide
theorem test_ill_formed_register_y : (Source.drw 0 16 0).wellFormed = false := by decide
theorem test_ill_formed_byte : (Source.addV 0 256).wellFormed = false := by decide
theorem test_ill_formed_rows : (Source.drw 0 0 16).wellFormed = false := by decide
theorem test_ill_formed_data : (Source.db 256).wellFormed = false := by decide
theorem test_ill_formed_index : (Source.ldI 0x1000).wellFormed = false := by decide
theorem test_ill_formed_is_not_assembled : (Source.ldV 16 0).assemble = none := by decide

/-! ### Decoding: one word written out for each row, from R88's patterns and the vectors E1 to E13 -/

theorem test_decode_cls : decodeWord 0x00EE#16 = .cls 0x0EE#12 := by decide
theorem test_decode_jp : decodeWord 0x1234#16 = .jp 0x234#12 := by decide
theorem test_decode_illegal2 : decodeWord 0x2FFF#16 = .illegal2 0xFFF#12 := by decide
theorem test_decode_illegal3 : decodeWord 0x3000#16 = .illegal3 0x000#12 := by decide
theorem test_decode_illegal4 : decodeWord 0x4000#16 = .illegal4 0x000#12 := by decide
theorem test_decode_illegal5 : decodeWord 0x5000#16 = .illegal5 0x000#12 := by decide
theorem test_decode_ldV : decodeWord 0x6F01#16 = .ldV 0xF#4 0x01#8 := by decide
theorem test_decode_addV : decodeWord 0x7A05#16 = .addV 0xA#4 0x05#8 := by decide
theorem test_decode_illegal8 : decodeWord 0x8AB4#16 = .illegal8 0xAB4#12 := by decide
theorem test_decode_illegal9 : decodeWord 0x9000#16 = .illegal9 0x000#12 := by decide
theorem test_decode_ldI : decodeWord 0xA2F0#16 = .ldI 0x2F0#12 := by decide
theorem test_decode_illegalB : decodeWord 0xB000#16 = .illegalB 0x000#12 := by decide
theorem test_decode_illegalC : decodeWord 0xC000#16 = .illegalC 0x000#12 := by decide
theorem test_decode_drw : decodeWord 0xD123#16 = .drw 0x1#4 0x2#4 0x3#4 := by decide
theorem test_decode_illegalE : decodeWord 0xEEEE#16 = .illegalE 0xEEE#12 := by decide
theorem test_decode_illegalF : decodeWord 0xF00A#16 = .illegalF 0x00A#12 := by decide

/-- A single byte is no instruction (R80). -/
theorem test_decode_truncated : decode [0x60#8] = .error .truncated := by rfl

/-- The table numbers a word's bits from its least significant one: 0x70FA is ADD V0, FA. -/
theorem test_decode_table_word : decodeTableWord 16 0x70FA = some (.addV 0x0#4 0xFA#8) := by decide

/-- S1a: the bytes D1, 23 make the word D123 (R111). -/
theorem test_fetch_is_big_endian : (placed 0x200 [0xD1#8, 0x23#8]).fetchWord = some 0xD123#16 := by decide

/-! ### One step of each instruction -/

/-- K3: 0x00EE clears the screen and does not return. -/
theorem test_cls : shows (step (lit (word 0x00EE#16) [(5, 5)])) [(5, 5), (0, 0)] [] = true := by decide
/-- S4a. -/
theorem test_jp : (after (step (word 0x1300#16))).map (·.pc) = some 0x300#16 := by decide
/-- L3: VF takes any byte. -/
theorem test_ldV : (after (step (word 0x6FAB#16))).map (·.getV 0xF#4) = some 0xAB#8 := by decide
/-- S5a: 250 + 10 mod 256. -/
theorem test_addV_wraps :
    (after (step (withV (word 0x730A#16) 0x3#4 0xFA#8))).map (fun t => (t.getV 0x3#4, t.pc)) = some (0x04#8, 0x202#16) := by decide
/-- A12: VF is not cleared and records no carry. -/
theorem test_addV_leaves_vf :
    (after (step (withV (withV (word 0x730A#16) 0x3#4 0xFA#8) 0xF#4 0x01#8))).map (·.getV 0xF#4) = some 0x01#8 := by decide
/-- X1. -/
theorem test_ldI : (after (step (word 0xA2F0#16))).map (fun t => (t.i, t.pc)) = some (0x2F0#16, 0x202#16) := by decide
/-- W19: the bottom-right corner, clipped on both sides, two collisions, and no wrap to (0,0). -/
theorem test_drw_corner :
    shows (exec (.drw 0x0#4 0x1#4 0x3#4)
        (withV (withV (lit (sprite [0xFF#8, 0xFF#8, 0xFF#8]) [(30, 60), (31, 63), (0, 0)]) 0x0#4 0x3C#8) 0x1#4 0x1E#8))
      [(30, 59), (30, 60), (30, 61), (30, 62), (30, 63), (31, 60), (31, 61), (31, 62), (31, 63), (0, 0), (0, 1), (30, 0)]
      [(0, 0), (30, 61), (30, 62), (30, 63), (31, 60), (31, 61), (31, 62)] = true := by decide
/-- H1, at 0x200: an unhandled word faults with the word, and PC stays. -/
theorem test_unhandled : status (step (word 0xF00A#16)) = some (.faulted, .unhandledInstruction, 0xF00A#16, 0x200#16) := by decide
/-- W15: the check is on all N rows, though clipping leaves one. -/
theorem test_drw_out_of_range :
    status (exec (.drw 0x0#4 0x1#4 0x2#4) (withV { placed 0xFFF [0x80#8] with i := 0xFFF#16 } 0x1#4 0x1F#8)) =
      some (.faulted, .spriteOutOfRange, 0xD012#16, 0x200#16) := by decide

/-! ### The step around an instruction -/

/-- F2: PC = 0xFFF. -/
theorem test_fetch_out_of_range :
    status (step { State.reset with pc := 0xFFF#16 }) = some (.faulted, .fetchOutOfRange, 0x0000#16, 0xFFF#16) := by decide
/-- F6: the halt request is sampled before the fetch. -/
theorem test_halt_before_fetch :
    status (step (HostMove.requestHalt.apply { State.reset with pc := 0xFFF#16 })) =
      some (.stopped, .none, 0x0000#16, 0xFFF#16) := by decide
/-- H2: a FAULTED core takes no step. -/
theorem test_faulted_stays : after (step (State.reset.enterFaulted .unhandledInstruction 0xF00A#16)) =
    some (State.reset.enterFaulted .unhandledInstruction 0xF00A#16) := by decide
/-- H5: reset leaves memory alone. -/
theorem test_reset_keeps_memory :
    (after (step (HostMove.reset.apply ((word 0xF00A#16).enterFaulted .unhandledInstruction 0xF00A#16)))).map
      (fun t => (t.runState, memRead t.mem 0x200)) = some (.running, some 0xF0#8) := by decide
/-- R230: the loader's port is ignored while the core runs. -/
theorem test_loader_ignored_in_a_run :
    (after (step ((HostMove.load 0x300#12 0xAA#8).apply (word 0x00E0#16)))).map (fun t => memRead t.mem 0x300) =
      some (some 0x00#8) := by decide
/-- F1: the instruction at 0xFFE completes and leaves PC = 0x1000. -/
theorem test_last_instruction :
    (after (step { placed 0xFFE [0x6A#8, 0x55#8] with pc := 0xFFE#16 })).map (fun t => (t.getV 0xA#4, t.pc)) =
      some (0x55#8, 0x1000#16) := by decide
/-- R94: a CLS word other than 0x00E0 is printed with its word. -/
theorem test_disassemble_cls : (disassemble (.cls 0x0EE#12)).map (·.text) = some "CLS ; 0x00EE" := by decide
/-- The bytes of program P2's `DRW V0, V1, 1`, and its text. -/
theorem test_assemble_drw :
    (Source.drw 0 1 1).assemble = some [0xD0#8, 0x11#8] ∧ (Source.drw 0 1 1).text = "DRW V0, V1, 1" := by decide

/-! ### Witnesses: states and operands that meet the hypotheses of the statements, each clause at a boundary -/

/-- The state a step leaves; `s` where there is none. -/
def next (s : State) : State := ((after (step s)).getD s)

/-- The state an instruction leaves; `s` where there is none. -/
def ran (i : Instr) (s : State) : State := ((after (exec i s)).getD s)

/-- A ready state whose PC is the last that can be fetched from, with a word there. -/
def lastWord (w : Word) : State := { placed 0xFFE w.bytes with pc := 0xFFE#16 }

/-- The reset state under reset, with the loader's port writing the last byte of memory. -/
def loading : State := (HostMove.load 0xFFF#12 0xAA#8).apply (HostMove.reset.apply State.reset)

theorem ready_word (w : Word) : (word w).Ready := ⟨rfl, rfl, rfl, rfl⟩
theorem ready_lastWord (w : Word) : (lastWord w).Ready := ⟨rfl, rfl, rfl, rfl⟩

/-- Inputs of a run with the loader's port driven. -/
def noisy : Inputs := { Inputs.run with ldWe := true, ldAddr := 0x200#12, ldData := 0xFF#8 }

theorem test_witness_OperandsAreInRangeByConstruction :
    decodeWord 0xDFFF#16 = .drw 0xF#4 0xF#4 0xF#4 ∧ (decodeWord 0xDFFF#16).toSource = some (.drw 15 15 15) := by decide

theorem test_witness_AssemblerEmitsTheEncodedWord :
    (4095 < 4096 ∧ 15 < 16 ∧ 255 < 256) ∧ (Source.jp 4095).toInstr = some (.jp 0xFFF#12) ∧
    (Source.drw 16 0 0).wellFormed = false ∧ (Instr.drw 0xF#4 0xF#4 0xF#4).handled = true ∧ (0x0E1#12 : Imm12) ≠ 0x0E0#12 := by
  decide

theorem test_witness_StepRunsTheDecodedInstruction :
    (lastWord 0x6A55#16).Ready ∧ memRead (lastWord 0x6A55#16).mem 0xFFE = some 0x6A#8 ∧
    memRead (lastWord 0x6A55#16).mem 0xFFF = some 0x55#8 ∧ (lastWord 0x6A55#16).pc.toNat = 0xFFE ∧
    decode [0x6A#8, 0x55#8] = .ok (.ldV 0xA#4 0x55#8, []) ∧ (Instr.ldV 0xA#4 0x55#8).wellFormed = true :=
  ⟨ready_lastWord _, by decide, by decide, by decide, rfl, by decide⟩

theorem test_witness_FetchIsBigEndianOrFaults :
    (lastWord 0x6A55#16).Ready ∧ (lastWord 0x6A55#16).pc.toNat + 1 < 4096 ∧
    { State.reset with pc := 0xFFF#16 }.Ready ∧ 4096 ≤ { State.reset with pc := 0xFFF#16 }.pc.toNat + 1 ∧
    { State.reset with pc := 0xFFFF#16 }.Ready ∧ 4096 ≤ { State.reset with pc := 0xFFFF#16 }.pc.toNat + 1 :=
  ⟨ready_lastWord _, by decide, ⟨rfl, rfl, rfl, rfl⟩, by decide, ⟨rfl, rfl, rfl, rfl⟩, by decide⟩

theorem test_witness_StepAlwaysAnswersNext : State.reset.inputs.rst = false := rfl

/-- A fetch fault, an unhandled word, a DRW out of range by one, and a DRW just in range. -/
theorem test_witness_StepFaultsExactlyOnTheThreeConditions :
    ({ State.reset with pc := 0xFFF#16 }.Ready ∧ 4096 ≤ { State.reset with pc := 0xFFF#16 }.pc.toNat + 1) ∧
    ((word 0xF00A#16).Ready ∧ memRead (word 0xF00A#16).mem 0x200 = some 0xF0#8 ∧
      memRead (word 0xF00A#16).mem 0x201 = some 0x0A#8 ∧ (decodeFields (assembleWord 0xF0#8 0x0A#8)).type = 0xF#4) ∧
    ({ word 0xD01F#16 with i := 0xFF2#16 }.Ready ∧ memRead (word 0xD01F#16).mem 0x200 = some 0xD0#8 ∧
      memRead (word 0xD01F#16).mem 0x201 = some 0x1F#8 ∧ (decodeFields (assembleWord 0xD0#8 0x1F#8)).type = 0xD#4 ∧
      4096 < (0xFF2#16 : Word).toNat + (decodeFields (assembleWord 0xD0#8 0x1F#8)).n.toNat) ∧
    ({ word 0xD01F#16 with i := 0xFF1#16 }.Ready ∧
      ¬4096 < (0xFF1#16 : Word).toNat + (decodeFields (assembleWord 0xD0#8 0x1F#8)).n.toNat) :=
  ⟨⟨⟨rfl, rfl, rfl, rfl⟩, by decide⟩, ⟨ready_word _, by decide, by decide, by decide⟩,
    ⟨⟨rfl, rfl, rfl, rfl⟩, by decide, by decide, by decide, by decide⟩, ⟨rfl, rfl, rfl, rfl⟩, by decide⟩

theorem test_witness_FaultEntryHaltsInPlace :
    (word 0xF00A#16).Ready ∧ step (word 0xF00A#16) = .next (next (word 0xF00A#16)) ∧
    (next (word 0xF00A#16)).runState = .faulted ∧ ∀ p ∈ [noisy, Inputs.run], p.rst = false :=
  ⟨ready_word _, rfl, by decide, by decide⟩

theorem test_witness_HaltRequestStopsBeforeTheFetch :
    let s := HostMove.requestHalt.apply { State.reset with pc := 0x1000#16 }
    s.inputs.rst = false ∧ s.runState = .running ∧ s.inputs.stepEn = true ∧ s.inputs.haltReq = true ∧
    ∀ p ∈ [noisy, Inputs.run], p.rst = false := by decide

theorem test_witness_HaltedCoreTakesNoStep :
    State.reset.enterStopped.runState ≠ .running ∧ ∀ p ∈ [noisy, Inputs.run], p.rst = false := by decide

theorem test_witness_EventsOfOneStepHaveAnOrder :
    let s := HostMove.reset.apply (HostMove.requestHalt.apply { State.reset with pc := 0xFFF#16 })
    s.runState = .running ∧ s.inputs.stepEn = true ∧ s.inputs.rst = true ∧ s.inputs.haltReq = true ∧
    4096 ≤ s.pc.toNat + 1 := by decide

theorem test_witness_ResetRestoresEveryRegister :
    let s := HostMove.reset.apply (State.reset.enterFaulted .fetchOutOfRange 0x0000#16)
    s.inputs.rst = true ∧ step s = .next (next s) ∧ s.runState ≠ .running ∧ (next s).runState = .running :=
  ⟨rfl, rfl, by decide, by decide⟩

/-- In a run, under reset with the port idle, and under reset with the port writing the last byte of memory. -/
theorem test_witness_LoaderPortWritesOnlyUnderReset :
    (step (State.reset.withInputs noisy) = .next (next (State.reset.withInputs noisy)) ∧ noisy.rst = false) ∧
    (step (HostMove.reset.apply State.reset) = .next (next (HostMove.reset.apply State.reset)) ∧
      (HostMove.reset.apply State.reset).inputs.rst = true ∧ (HostMove.reset.apply State.reset).inputs.ldWe = false) ∧
    (step loading = .next (next loading) ∧ loading.inputs.rst = true ∧ loading.inputs.ldWe = true ∧
      memWf loading.mem = true) :=
  ⟨⟨rfl, rfl⟩, ⟨rfl, rfl, rfl⟩, rfl, rfl, rfl, rfl⟩

/-- The longest ROM, whose last byte is at 0xFFF, and a ROM of one byte more. -/
theorem test_witness_BootLoadsTheRomVerbatim :
    memWf State.reset.mem = true ∧ (List.replicate 3584 0xAA#8).length ≤ 3584 ∧
    3583 < (List.replicate 3584 0xAA#8).length ∧ ¬(0x200 ≤ 0x1FF ∧ 0x1FF < 0x200 + (List.replicate 3584 0xAA#8).length) ∧
    3584 < (List.replicate 3585 0xAA#8).length := by
  simp only [List.length_replicate]
  decide

/-- The step at the last PC that can be fetched from: it leaves PC at the bound, 0x1000. -/
theorem test_witness_StepKeepsTheInvariant :
    (lastWord 0x6A55#16).Inv ∧ step (lastWord 0x6A55#16) = .next (next (lastWord 0x6A55#16)) :=
  ⟨⟨by decide, by decide, rfl, rfl, ⟨by decide, by decide, by decide, by decide, fun h => by cases h⟩⟩, rfl⟩

theorem test_witness_EveryRunFromBootKeepsTheInvariant :
    memWf [(0x100, 0x12#8)] = true ∧
    bootWith [(0x100, 0x12#8)] [0x60#8, 0x05#8] =
      some { State.reset with mem := memWriteBytes [(0x100, 0x12#8)] 0x200 [0x60#8, 0x05#8] } ∧
    (∀ p ∈ [noisy], p.rst = false) ∧
    runWith [noisy] { State.reset with mem := memWriteBytes [(0x100, 0x12#8)] 0x200 [0x60#8, 0x05#8] } =
      .next (next ({ State.reset with mem := memWriteBytes [(0x100, 0x12#8)] 0x200 [0x60#8, 0x05#8] }.withInputs noisy)) :=
  ⟨by decide, rfl, by decide, rfl⟩

theorem test_witness_NoInstructionWritesMemory :
    exec (.drw 0x0#4 0x0#4 0x1#4) (sprite [0x80#8]) = .next (ran (.drw 0x0#4 0x0#4 0x1#4) (sprite [0x80#8])) ∧
    (∀ p ∈ [noisy], p.rst = false) ∧ runWith [noisy] State.reset = .next (next (State.reset.withInputs noisy)) :=
  ⟨rfl, by decide, rfl⟩

theorem test_witness_JpSetsPcExactly : (word 0x1FFF#16).Ready := ready_word _

theorem test_witness_LdVWritesOneRegister : (0xE#4 : Nibble) ≠ 0xF#4 := by decide

theorem test_witness_AddVWrapsAndSetsNoFlag : (0xF#4 : Nibble) ≠ 0x3#4 := by decide

/-- The last sprite that fits: I = 0xFF1 with N = 15, and a sprite of no rows at the top of the address range. -/
theorem test_witness_DrwIsThePointwiseForm :
    (0xFF1#16 : Word).toNat + (15#4 : Nibble).toNat ≤ 4096 ∧ (0x1000#16 : Word).toNat + (0#4 : Nibble).toNat ≤ 4096 ∧
    (∃ y x, drawHit (lit (sprite [0x80#8]) [(0, 0)]) 0x0#4 0x1#4 0x1#4 y x = true ∧
      pixel (lit (sprite [0x80#8]) [(0, 0)]).fb y x = true) ∧
    (¬∃ y x, drawHit (sprite [0x80#8]) 0x0#4 0x1#4 0x1#4 y x = true ∧ pixel (sprite [0x80#8]).fb y x = true) ∧
    (0xE#4 : Nibble) ≠ 0xF#4 := by
  refine ⟨by decide, by decide, ⟨0, 0, by decide⟩, ?_, by decide⟩
  rintro ⟨y, x, _, h⟩
  have hoff : pixel (sprite [0x80#8]).fb y x = false := pixel_allOff y x
  rw [hoff] at h
  cases h

theorem test_witness_DrwChecksAllRowsBeforeDrawing :
    4096 < (0xFF2#16 : Word).toNat + (15#4 : Nibble).toNat ∧ (0xFF1#16 : Word).toNat + (15#4 : Nibble).toNat ≤ 4096 := by decide

/-- One row, 3 columns wide, at the right edge: its last column is 2, and column 3 lies outside. -/
theorem test_witness_DrwTogglesOnlyTheClippedRectangle :
    let s := withV (sprite [0xFF#8]) 0x0#4 0x3D#8
    s.i.toNat + (1#4 : Nibble).toNat ≤ 4096 ∧ 0 < min (32 - (s.getV 0x1#4).toNat % 32) (1#4 : Nibble).toNat ∧
    2 < min (64 - (s.getV 0x0#4).toNat % 64) 8 ∧
    ¬(61 ≤ 60 ∧ 60 < 61 + min (64 - (s.getV 0x0#4).toNat % 64) 8) := by decide

theorem test_witness_CollisionMeansAnOnPixelTurnedOff : (0xFFF#16 : Word).toNat + (1#4 : Nibble).toNat ≤ 4096 := by decide

theorem test_witness_DrwReadsCoordinatesBeforeWritingVf :
    let s := withV (withV (sprite [0x80#8]) 0xF#4 0x05#8) 0x0#4 0x05#8
    s.i.toNat + (1#4 : Nibble).toNat ≤ 4096 ∧ s.getV 0xF#4 = s.getV 0x0#4 ∧ s.getV 0x2#4 = s.getV 0x1#4 := by decide

/-- No rows at the end of memory, and one row of zeros. -/
theorem test_witness_BlankSpriteDrawsNothingAndClearsVf :
    ((0x1000#16 : Word).toNat + (0#4 : Nibble).toNat ≤ 4096 ∧
      ∀ r, r < (0#4 : Nibble).toNat → memByte State.reset.mem (0x1000 + r) = 0x00#8) ∧
    ((0xFFF#16 : Word).toNat + (1#4 : Nibble).toNat ≤ 4096 ∧
      ∀ r, r < (1#4 : Nibble).toNat → memByte State.reset.mem (0xFFF + r) = 0x00#8) :=
  ⟨⟨by decide, fun _ _ => rfl⟩, by decide, fun _ _ => rfl⟩

/-- Two draws in succession, and two draws by VF as both coordinates, with VF restored between them. -/
theorem test_witness_DrawingTwiceRestoresTheScreen :
    (sprite [0x80#8]).i.toNat + (1#4 : Nibble).toNat ≤ 4096 ∧ (∀ y x, pixel (sprite [0x80#8]).fb y x = false) ∧
    (0x0#4 : Nibble) ≠ 0xF#4 ∧ (0xE#4 : Nibble) ≠ 0xF#4 ∧
    exec (.drw 0xF#4 0xF#4 0x1#4) (withV (sprite [0x80#8]) 0xF#4 0x05#8) =
      .next (ran (.drw 0xF#4 0xF#4 0x1#4) (withV (sprite [0x80#8]) 0xF#4 0x05#8)) ∧
    ((ran (.drw 0xF#4 0xF#4 0x1#4) (withV (sprite [0x80#8]) 0xF#4 0x05#8)).setV 0xF#4 0x05#8).getV 0xF#4 =
      (withV (sprite [0x80#8]) 0xF#4 0x05#8).getV 0xF#4 :=
  ⟨by decide, fun y x => pixel_allOff y x, by decide, by decide, rfl, by decide⟩

theorem test_witness_OnPixelCountChangesByTheTargetedPixels : (0xFF1#16 : Word).toNat + (15#4 : Nibble).toNat ≤ 4096 := by
  decide

theorem test_witness_UnhandledTypesFaultInPlace :
    (0x2000#16 : Word).extractLsb' 12 4 ∈ [0x2#4, 0x3#4, 0x4#4, 0x5#4, 0x8#4, 0x9#4, 0xB#4, 0xC#4, 0xE#4, 0xF#4] ∧
    (0xFFFF#16 : Word).extractLsb' 12 4 ∈ [0x2#4, 0x3#4, 0x4#4, 0x5#4, 0x8#4, 0x9#4, 0xB#4, 0xC#4, 0xE#4, 0xF#4] ∧
    Instr.illegalF 0xFFF#12 ∈ [Instr.illegal2 0xFFF#12, .illegalF 0xFFF#12] := by decide

theorem test_witness_OnlyClsAndDrwChangeTheFramebuffer :
    exec (.cls 0x0E0#12) (lit State.reset [(31, 63)]) = .next (ran (.cls 0x0E0#12) (lit State.reset [(31, 63)])) ∧
    (ran (.cls 0x0E0#12) (lit State.reset [(31, 63)])).fb ≠ (lit State.reset [(31, 63)]).fb := by
  refine ⟨rfl, fun h => ?_⟩
  have hpix := congrArg (fun fb => pixel fb 31 63) h
  revert hpix
  decide

theorem test_witness_OnlyLdIWritesAndOnlyDrwReadsI :
    exec (.ldI 0xFFF#12) State.reset = .next (ran (.ldI 0xFFF#12) State.reset) ∧
    (ran (.ldI 0xFFF#12) State.reset).i ≠ State.reset.i ∧ ∀ vx vy n, (Instr.ldI 0xFFF#12) ≠ .drw vx vy n :=
  ⟨rfl, by decide, fun _ _ _ h => by cases h⟩

theorem test_witness_OnlyTheNamedRegisterChanges :
    exec (.ldV 0xF#4 0x01#8) State.reset = .next (ran (.ldV 0xF#4 0x01#8) State.reset) ∧
    (ran (.ldV 0xF#4 0x01#8) State.reset).getV 0xF#4 ≠ State.reset.getV 0xF#4 :=
  ⟨rfl, by decide⟩

/-- A jump, a fault, and an advance at the last PC that can be fetched from. -/
theorem test_witness_PcAdvancesByTheTable :
    (State.reset.runState = .running ∧ exec (.jp 0xFFF#12) State.reset = .next (ran (.jp 0xFFF#12) State.reset)) ∧
    (exec (.illegalF 0x000#12) State.reset = .next (ran (.illegalF 0x000#12) State.reset) ∧
      (ran (.illegalF 0x000#12) State.reset).runState = .faulted ∧ ∀ nnn, Instr.illegalF 0x000#12 ≠ .jp nnn) ∧
    ((lastWord 0x0000#16).runState = .running ∧
      exec (.cls 0x000#12) (lastWord 0x0000#16) = .next (ran (.cls 0x000#12) (lastWord 0x0000#16)) ∧
      (ran (.cls 0x000#12) (lastWord 0x0000#16)).runState ≠ .faulted ∧ (∀ nnn, Instr.cls 0x000#12 ≠ .jp nnn) ∧
      (lastWord 0x0000#16).pc.toNat + 1 < 4096) :=
  ⟨⟨rfl, rfl⟩, ⟨rfl, rfl, fun _ h => by cases h⟩, rfl, rfl, by decide, (fun _ h => by cases h), by decide⟩

theorem test_witness_StackIsInert :
    exec (.jp 0x300#12) State.reset = .next (ran (.jp 0x300#12) State.reset) ∧ (∀ p ∈ [noisy], p.rst = false) ∧
    runWith [noisy] State.reset = .next (next (State.reset.withInputs noisy)) :=
  ⟨rfl, by decide, rfl⟩

/-- Another memory that agrees at the sprite's one byte and differs beside it. -/
theorem test_witness_InstructionsReadOnlyTheirSpriteBytes :
    (∀ vx vy n, Instr.drw 0x0#4 0x1#4 0x1#4 = .drw vx vy n → ∀ r, r < n.toNat →
      memByte (placed 0x300 [0x80#8, 0xFF#8]).mem ((sprite [0x80#8]).i.toNat + r) =
        memByte (sprite [0x80#8]).mem ((sprite [0x80#8]).i.toNat + r)) ∧
    exec (.drw 0x0#4 0x1#4 0x1#4) (sprite [0x80#8]) = .next (ran (.drw 0x0#4 0x1#4 0x1#4) (sprite [0x80#8])) := by
  refine ⟨?_, rfl⟩
  intro vx vy n h r hr
  injection h with _ _ h
  subst h
  obtain rfl : r = 0 := Nat.lt_one_iff.mp hr
  decide

/-- The jump to its own address at the last PC that can be fetched from. -/
theorem test_witness_JumpToSelfIsAFixedPoint :
    let s := lastWord 0x1FFE#16
    s.Ready ∧ s.pc.toNat + 1 < 4096 ∧ memRead s.mem s.pc.toNat = some (.ofNat 8 (0x10 + s.pc.toNat / 256)) ∧
    memRead s.mem (s.pc.toNat + 1) = some (.ofNat 8 (s.pc.toNat % 256)) :=
  ⟨ready_lastWord _, by decide, by decide, by decide⟩

theorem test_witness_PacingChangesNothing :
    ∀ p ∈ [{ Inputs.run with stepEn := false }, Inputs.run, { noisy with stepEn := false }], p.rst = false := by decide

theorem test_witness_ReadPortIsRowMajor : 31 < 32 ∧ 63 < 64 := by decide

/-- A core under reset, one that runs, and a store to the last byte of memory. -/
theorem test_witness_HostMovesHaveTheEffectsOfTheHostTable :
    ((HostMove.reset.apply State.reset).inputs.rst = true ∧ memWf (HostMove.reset.apply State.reset).mem = true ∧
      (0xFFE : Nat) ≠ (0xFFF#12 : Imm12).toNat) ∧
    (State.reset.inputs.rst = false ∧ State.reset.runState = .running ∧ State.reset.inputs.stepEn = true) := by decide

theorem test_witness_PlacedWordIsTheNextStep :
    memWf State.reset.mem = true ∧ decodeTableWord 16 0xFFFF = some (.illegalF 0xFFF#12) := by decide

end Sys2Proof.Tests
end

/-! The proofs of the statements about the state (`10_state.md`): the registers, PC, the stack, the framebuffer's read
port and the status ports; and, for the operand ranges of R22, that encoding and decoding are inverse to one another. -/

namespace Sys2Proof

/-! ### Encoding and decoding are inverse to one another (R81, R83, R88) -/

/-- The type nibble and the twelve bits after it make up the word. -/
theorem append_type_imm12 (w : Word) : (w.extractLsb' 12 4 ++ w.extractLsb' 0 12 : Word) = w := by
  apply BitVec.eq_of_toNat_eq
  rw [toNat_append_add, toNat_field, toNat_field]
  have := w.isLt
  omega

/-- The fields type, X and NN make up the word. -/
theorem append_type_x_nn (w : Word) : ((w.extractLsb' 12 4 ++ w.extractLsb' 8 4) ++ w.extractLsb' 0 8 : Word) = w := by
  apply BitVec.eq_of_toNat_eq
  rw [toNat_append_add, toNat_append_add, toNat_field, toNat_field, toNat_field]
  have := w.isLt
  omega

/-- The fields type, X, Y and N make up the word. -/
theorem append_type_x_y_n (w : Word) :
    (((w.extractLsb' 12 4 ++ w.extractLsb' 8 4) ++ w.extractLsb' 4 4) ++ w.extractLsb' 0 4 : Word) = w := by
  apply BitVec.eq_of_toNat_eq
  rw [toNat_append_add, toNat_append_add, toNat_append_add, toNat_field, toNat_field, toNat_field, toNat_field]
  have := w.isLt
  omega

@[simp] theorem decodeWord_encode (i : Instr) : decodeWord (encode i) = i := by
  cases i with
  | ldV | addV => simp [decodeWord, decodeFields, encode, fields_x_nn]
  | drw => simp [decodeWord, decodeFields, encode, fields_x_y_n]
  | _ => simp [decodeWord, decodeFields, encode, fields_imm12]

/-- Every format, whichever the type selects, keeps all sixteen bits (R83). -/
@[simp] theorem encode_decodeWord (w : Word) : encode (decodeWord w) = w := by
  have himm := append_type_imm12 w
  have hxnn := append_type_x_nn w
  have hxyn := append_type_x_y_n w
  rcases nibble_cases (w.extractLsb' 12 4) with h | h | h | h | h | h | h | h | h | h | h | h | h | h | h | h <;>
    rw [h] at himm hxnn hxyn <;> simp [decodeWord, decodeFields, h, encode, himm, hxnn, hxyn]

/-- A word decodes to an instruction exactly if it is that instruction's word. -/
theorem decodeWord_eq_iff (w : Word) (i : Instr) : decodeWord w = i ↔ w.toNat = (encode i).toNat := by
  rw [← BitVec.toNat_eq]
  constructor
  · rintro rfl
    exact (encode_decodeWord w).symm
  · rintro rfl
    exact decodeWord_encode i

/-! ### The word of an instruction with operands, as a number (R81, R94) -/

theorem toNat_encode_jp (nnn : Imm12) : (encode (.jp nnn)).toNat = 0x1000 + nnn.toNat := toNat_append_add _ nnn

theorem toNat_encode_ldI (nnn : Imm12) : (encode (.ldI nnn)).toNat = 0xA000 + nnn.toNat := toNat_append_add _ nnn

theorem toNat_encode_ldV (x : Nibble) (nn : Byte) :
    (encode (.ldV x nn)).toNat = 0x6000 + x.toNat * 256 + nn.toNat := by
  simp only [encode, toNat_append_add, BitVec.toNat_ofNat]
  omega

theorem toNat_encode_addV (x : Nibble) (nn : Byte) :
    (encode (.addV x nn)).toNat = 0x7000 + x.toNat * 256 + nn.toNat := by
  simp only [encode, toNat_append_add, BitVec.toNat_ofNat]
  omega

theorem toNat_encode_drw (x y n : Nibble) :
    (encode (.drw x y n)).toNat = 0xD000 + x.toNat * 256 + y.toNat * 16 + n.toNat := by
  simp only [encode, toNat_append_add, BitVec.toNat_ofNat]
  omega

/-- The bytes of a word as quotient and remainder (R52, R80). -/
theorem Word.bytes_eq (w : Word) : Word.bytes w = [.ofNat 8 (w.toNat / 256), .ofNat 8 (w.toNat % 256)] := by
  have hhi : w.extractLsb' 8 8 = .ofNat 8 (w.toNat / 256) := by
    apply BitVec.eq_of_toNat_eq
    exact (toNat_field w 8 8).trans (BitVec.toNat_ofNat ..).symm
  have hlo : w.extractLsb' 0 8 = .ofNat 8 (w.toNat % 256) := by
    apply BitVec.eq_of_toNat_eq
    rw [toNat_field, BitVec.toNat_ofNat]
    omega
  rw [Word.bytes, hhi, hlo]

/-- The bytes of an instruction, from the number of its word (R94). -/
theorem bytes_ofNat_of_toNat_encode {k : Nat} {i : Instr} (h : (encode i).toNat = k) :
    Word.bytes (.ofNat 16 k) = encodeBytes i := by
  rw [← h, BitVec.ofNat_toNat, BitVec.setWidth_eq, encodeBytes]

/-! ### Source lines (R94) -/

/-- A line that stands for an instruction passes the range checks. -/
theorem Source.wellFormed_of_toInstr {l : Source} {i : Instr} (h : l.toInstr = some i) : l.wellFormed = true := by
  by_contra hwf
  unfold Source.toInstr at h
  rw [if_neg hwf] at h
  cases h

/-- A line that stands for an instruction assembles to that instruction's bytes. -/
theorem Source.assemble_of_toInstr {l : Source} {i : Instr} (h : l.toInstr = some i) :
    l.assemble = some (encodeBytes i) := by
  have hwf := Source.wellFormed_of_toInstr h
  unfold Source.toInstr at h
  unfold Source.assemble
  rw [if_pos hwf] at h ⊢
  cases l with
  | cls => cases h; rfl
  | db b => cases h
  | jp nnn =>
    cases h
    simp only [Source.wellFormed, addrOk, decide_eq_true_eq] at hwf
    exact congrArg some (bytes_ofNat_of_toNat_encode (by simp only [toNat_encode_jp, BitVec.toNat_ofNat]; omega))
  | ldI nnn =>
    cases h
    simp only [Source.wellFormed, addrOk, decide_eq_true_eq] at hwf
    exact congrArg some (bytes_ofNat_of_toNat_encode (by simp only [toNat_encode_ldI, BitVec.toNat_ofNat]; omega))
  | ldV x nn =>
    cases h
    simp only [Source.wellFormed, regOk, byteOk, Bool.and_eq_true, decide_eq_true_eq] at hwf
    exact congrArg some (bytes_ofNat_of_toNat_encode (by simp only [toNat_encode_ldV, BitVec.toNat_ofNat]; omega))
  | addV x nn =>
    cases h
    simp only [Source.wellFormed, regOk, byteOk, Bool.and_eq_true, decide_eq_true_eq] at hwf
    exact congrArg some (bytes_ofNat_of_toNat_encode (by simp only [toNat_encode_addV, BitVec.toNat_ofNat]; omega))
  | drw x y n =>
    cases h
    simp only [Source.wellFormed, regOk, rowsOk, Bool.and_eq_true, decide_eq_true_eq] at hwf
    exact congrArg some (bytes_ofNat_of_toNat_encode (by simp only [toNat_encode_drw, BitVec.toNat_ofNat]; omega))

/-- The source line of an instruction stands for that instruction. -/
theorem Instr.toInstr_of_toSource {i : Instr} {l : Source} (h : i.toSource = some l) : l.toInstr = some i := by
  cases i with
  | cls low =>
    simp only [Instr.toSource] at h
    split at h
    · next hlow => cases h; rw [hlow]; rfl
    · cases h
  | jp nnn | ldI nnn =>
    cases h
    have hnnn : addrOk nnn.toNat = true := decide_eq_true nnn.isLt
    simp [Source.toInstr, Source.wellFormed, hnnn]
  | ldV x nn | addV x nn =>
    cases h
    have hx : regOk x.toNat = true := decide_eq_true x.isLt
    have hnn : byteOk nn.toNat = true := decide_eq_true nn.isLt
    simp [Source.toInstr, Source.wellFormed, hx, hnn]
  | drw x y n =>
    cases h
    have hx : regOk x.toNat = true := decide_eq_true x.isLt
    have hy : regOk y.toNat = true := decide_eq_true y.isLt
    have hn : rowsOk n.toNat = true := decide_eq_true n.isLt
    simp [Source.toInstr, Source.wellFormed, hx, hy, hn]
  | _ => cases h

/-- Settles O6: a word is the encoding of its instruction, so its number is that of the instruction's layout, and its
source line assembles to its bytes. -/
theorem operandsAreInRangeByConstruction : Obligations.OperandsAreInRangeByConstruction := by
  intro w
  refine ⟨fun x nn => ?_, fun x nn => ?_, fun x y n => ?_, fun l hl => ?_⟩
  · rw [decodeWord_eq_iff, toNat_encode_ldV]
  · rw [decodeWord_eq_iff, toNat_encode_addV]
  · rw [decodeWord_eq_iff, toNat_encode_drw]
  · have hline := Instr.toInstr_of_toSource hl
    refine ⟨Source.wellFormed_of_toInstr hline, ?_⟩
    rw [Source.assemble_of_toInstr hline, encodeBytes, encode_decodeWord, Word.bytes_eq]

end Sys2Proof

namespace Sys2Proof.Machine

/-! ### The general registers (R21) -/

/-- A draw writes VF alone among the general registers (R21, R158). -/
theorem State.getV_drawn_of_ne_vf (s : State) (x y : Nibble) (sprite : List Byte) {j : Nibble} (h : j ≠ vf) :
    (s.drawn x y sprite).getV j = s.getV j := by
  rw [State.drawn, State.getV_setCollision, if_neg h, State.getV_setFb]

/-- Settles O39: of the registers, LD Vx and ADD Vx write V[x] and DRW writes VF. -/
theorem onlyTheNamedRegisterChanges : Obligations.OnlyTheNamedRegisterChanges := by
  intro i s t j h hne
  have hi := exec_inversion h
  cases i with
  | ldV x nn =>
    obtain rfl : t = _ := hi
    obtain rfl : j = x := by
      by_contra hj
      exact hne (s.getV_setV_other nn hj)
    exact .inl ⟨nn, rfl⟩
  | addV x nn =>
    obtain rfl : t = _ := hi
    obtain rfl : j = x := by
      by_contra hj
      exact hne (s.getV_setV_other (s.getV x + nn) hj)
    exact .inr (.inl ⟨nn, rfl⟩)
  | drw x y n =>
    obtain ⟨_, rfl⟩ | ⟨_, rfl⟩ := hi
    · obtain rfl : j = vf := by
        by_contra hj
        exact hne (s.getV_drawn_of_ne_vf x y _ hj)
      exact .inr (.inr ⟨rfl, x, y, n, rfl⟩)
    · exact absurd rfl hne
  | _ => obtain rfl : t = _ := hi; exact absurd rfl hne

/-! ### The index register (R30) -/

/-- Only LD I, NNN writes I (R30, R148). -/
theorem exec_i_of_ne {i : Instr} {s t : State} (h : exec i s = .next t) (hne : t.i ≠ s.i) :
    ∃ nnn, i = .ldI nnn ∧ t.i = zextImm nnn := by
  have hi := exec_inversion h
  cases i with
  | ldI nnn => exact ⟨nnn, rfl, hi ▸ rfl⟩
  | drw x y n => obtain ⟨_, rfl⟩ | ⟨_, rfl⟩ := hi <;> exact absurd rfl hne
  | _ => obtain rfl : t = _ := hi; exact absurd rfl hne

/-- Only DRW reads I (R30): any other instruction does the same to the rest of the state whatever I holds. -/
theorem exec_with_i {i : Instr} {s t : State} (w : Word) (hdrw : ∀ x y n, i ≠ .drw x y n) (h : exec i s = .next t) :
    ∃ u, exec i { s with i := w } = .next u ∧ { u with i := t.i } = t := by
  have hi := exec_inversion h
  cases i with
  | drw x y n => exact absurd rfl (hdrw x y n)
  | _ => obtain rfl : t = _ := hi; exact ⟨_, rfl, rfl⟩

/-- Settles O38. -/
theorem onlyLdIWritesAndOnlyDrwReadsI : Obligations.OnlyLdIWritesAndOnlyDrwReadsI :=
  ⟨fun _ _ _ h hne => exec_i_of_ne h hne, fun _ _ _ w hdrw h => exec_with_i w hdrw h⟩

/-! ### The program counter (R26) -/

/-- What an instruction does to PC: a jump sets it, a fault keeps it, and everything else advances it and keeps the run
state (R26). -/
theorem exec_pc {i : Instr} {s t : State} (h : exec i s = .next t) :
    (∃ nnn, i = .jp nnn ∧ t.pc = zextImm nnn) ∨ (t.pc = s.pc ∧ t.runState = .faulted) ∨
      (t.pc = s.pc + 2#16 ∧ t.runState = s.runState) := by
  have hi := exec_inversion h
  cases i with
  | jp nnn => exact .inl ⟨nnn, rfl, hi ▸ rfl⟩
  | drw x y n =>
    obtain ⟨_, rfl⟩ | ⟨_, rfl⟩ := hi
    · exact .inr (.inr ⟨rfl, rfl⟩)
    · exact .inr (.inl ⟨rfl, rfl⟩)
  | cls | ldV | addV | ldI => exact .inr (.inr ⟨hi ▸ rfl, hi ▸ rfl⟩)
  | _ => exact .inr (.inl ⟨hi ▸ rfl, hi ▸ rfl⟩)

/-- Where an instruction can be fetched, `pc + 2` does not wrap (R26, R27). -/
theorem toNat_pc_add_two {pc : Word} (h : pc.toNat + 1 < 4096) : (pc + 2#16).toNat = pc.toNat + 2 := by
  rw [BitVec.toNat_add, BitVec.toNat_ofNat]
  omega

/-- Settles O40: from RUNNING, an instruction that advances PC leaves the core RUNNING. -/
theorem pcAdvancesByTheTable : Obligations.PcAdvancesByTheTable := by
  intro i s t hrun h
  refine ⟨?_, fun hjp hfaulted => ?_, fun hjp hnot => ?_, fun hpc => ⟨toNat_pc_add_two hpc, by omega⟩⟩
  · rintro nnn rfl
    obtain rfl : t = _ := exec_inversion h
    rfl
  · obtain ⟨nnn, rfl, _⟩ | ⟨hpc, _⟩ | ⟨_, hkept⟩ := exec_pc h
    · exact absurd rfl (hjp nnn)
    · exact hpc
    · rw [hkept, hrun] at hfaulted
      cases hfaulted
  · obtain ⟨nnn, rfl, _⟩ | ⟨_, hfaulted⟩ | ⟨hpc, _⟩ := exec_pc h
    · exact absurd rfl (hjp nnn)
    · exact absurd hfaulted hnot
    · exact hpc

/-! ### The call stack (R33) -/

/-- No instruction writes the call stack (R33). -/
theorem exec_stack {i : Instr} {s t : State} (h : exec i s = .next t) : t.stack = s.stack := by
  obtain hkept | ⟨_, rfl⟩ | ⟨_, _, _, _, _, rfl⟩ := exec_completes_or_faults h
  · exact hkept.stack
  · rfl
  · rfl

/-- No step without reset writes the call stack (R33). -/
theorem step_stack {s t : State} (hrst : s.inputs.rst = false) (h : step s = .next t) : t.stack = s.stack := by
  obtain ⟨hrst', _⟩ | ⟨_, _, rfl⟩ | ⟨_, _, _, _, rfl⟩ | ⟨_, _, rfl⟩ | ⟨_, _, hexec⟩ := step_inversion h
  · rw [hrst] at hrst'
    cases hrst'
  · rfl
  · rfl
  · rfl
  · exact exec_stack hexec

/-- No instruction reads the call stack (R33). -/
theorem exec_with_stack {i : Instr} {s t : State} (st : List Word) (h : exec i s = .next t) :
    exec i { s with stack := st } = .next { t with stack := st } := by
  have hi := exec_inversion h
  cases i with
  | drw x y n =>
    obtain ⟨hr, rfl⟩ | ⟨hr, rfl⟩ := hi
    · exact exec_drw_inRange (s := { s with stack := st }) hr
    · exact exec_drw_outOfRange (s := { s with stack := st }) hr
  | _ => obtain rfl : t = _ := hi; rfl

/-- Settles O41. -/
theorem stackIsInert : Obligations.StackIsInert := by
  refine ⟨fun i s t st h => ⟨exec_stack h, exec_with_stack st h⟩, fun ps s t hps hrun => ?_⟩
  exact runWith_induction (fun u => u.stack = s.stack) (fun _ _ hu => hu)
    (fun _ _ hu hrst hstep => (step_stack hrst hstep).trans hu) ps s t hps rfl hrun

/-! ### The framebuffer (R35) -/

/-- Settles O37: the state left by any other instruction has the framebuffer it started with. -/
theorem onlyClsAndDrwChangeTheFramebuffer : Obligations.OnlyClsAndDrwChangeTheFramebuffer := by
  intro i s t h hfb
  have hi := exec_inversion h
  cases i with
  | cls low => exact .inl ⟨low, rfl⟩
  | drw x y n => exact .inr ⟨x, y, n, rfl⟩
  | _ => obtain rfl : t = _ := hi; exact absurd rfl hfb

/-! ### The reset state and the ports -/

/-- Every general register is 0 after reset (R42). -/
theorem State.getV_reset (j : Nibble) : State.reset.getV j = 0x00#8 := by
  simp [State.getV, State.reset]

/-- Settles O17. -/
theorem resetStateIsTheTable : Obligations.ResetStateIsTheTable :=
  ⟨rfl, State.getV_reset, rfl, rfl, pixel_allOff, rfl, rfl, rfl⟩

/-- Settles O45: the address `y*64 + x` has y in its upper five bits and x in its lower six. -/
theorem readPortIsRowMajor : Obligations.ReadPortIsRowMajor := by
  intro s y x hy hx
  have hrow : ((BitVec.ofNat 11 (y * 64 + x)).extractLsb' 6 5).toNat = y := by
    rw [BitVec.extractLsb'_toNat, BitVec.toNat_ofNat, Nat.shiftRight_eq_div_pow]
    omega
  have hcol : ((BitVec.ofNat 11 (y * 64 + x)).extractLsb' 0 6).toNat = x := by
    rw [BitVec.extractLsb'_toNat, BitVec.toNat_ofNat, Nat.shiftRight_zero]
    omega
  rw [fbRdata, hrow, hcol]

/-- Different run states have different codes (R36). -/
theorem RunState.code_injective : Function.Injective RunState.code := by
  intro a b
  cases a <;> cases b <;> decide

/-- The reserved code 3 is never produced (R36). -/
theorem RunState.code_ne_three (r : RunState) : r.code ≠ 3#2 := by
  cases r <;> decide

/-- Different causes have different codes (R37). -/
theorem FaultCause.code_injective : Function.Injective FaultCause.code := by
  intro a b
  cases a <;> cases b <;> decide

/-- Settles O46: each code is that of one value only. -/
theorem statusPortsCarryTheCodes : Obligations.StatusPortsCarryTheCodes := fun _ =>
  ⟨RunState.code_injective.eq_iff (b := .running), RunState.code_injective.eq_iff (b := .stopped),
    RunState.code_injective.eq_iff (b := .faulted), RunState.code_ne_three _,
    FaultCause.code_injective.eq_iff (b := .none), FaultCause.code_injective.eq_iff (b := .fetchOutOfRange),
    FaultCause.code_injective.eq_iff (b := .unhandledInstruction),
    FaultCause.code_injective.eq_iff (b := .spriteOutOfRange), rfl⟩

end Sys2Proof.Machine

namespace Sys2Proof.Machine

/-! ### Memory (R56, R58, R68) -/

/-- No instruction writes memory (R58). -/
theorem exec_mem {i : Instr} {s t : State} (h : exec i s = .next t) : t.mem = s.mem := by
  have hi := exec_inversion h
  cases i with
  | drw x y n => obtain ⟨_, rfl⟩ | ⟨_, rfl⟩ := hi <;> rfl
  | _ => obtain rfl : t = _ := hi; rfl

/-- No step without reset writes memory: the loader's port is honoured under reset only (R43, R58). -/
theorem step_mem {s t : State} (hrst : s.inputs.rst = false) (h : step s = .next t) : t.mem = s.mem := by
  obtain ⟨hrst', _⟩ | ⟨_, _, rfl⟩ | ⟨_, _, _, _, rfl⟩ | ⟨_, _, rfl⟩ | ⟨_, _, hexec⟩ := step_inversion h
  · rw [hrst] at hrst'
    cases hrst'
  · rfl
  · rfl
  · rfl
  · exact exec_mem hexec

/-- No run without reset writes memory (R58). -/
theorem runWith_mem {ps : List Inputs} {s t : State} (hps : ∀ p ∈ ps, p.rst = false) (hrun : runWith ps s = .next t) :
    t.mem = s.mem :=
  runWith_induction (fun u => u.mem = s.mem) (fun _ _ hu => hu)
    (fun _ _ hu hrst hstep => (step_mem hrst hstep).trans hu) ps s t hps rfl hrun

/-- Settles O23. -/
theorem noInstructionWritesMemory : Obligations.NoInstructionWritesMemory :=
  ⟨fun _ _ _ h => exec_mem h, fun _ _ _ hps hrun => runWith_mem hps hrun⟩

/-- The sprite bytes are all that a draw takes from memory: where they agree, so do the draws (R56, R68). -/
theorem exec_drw_with_mem {x y n : Nibble} {s t : State} {m : Mem}
    (hm : ∀ r, r < n.toNat → memByte m (s.i.toNat + r) = memByte s.mem (s.i.toNat + r))
    (h : exec (.drw x y n) s = .next t) : exec (.drw x y n) { s with mem := m } = .next { t with mem := m } := by
  obtain ⟨hr, rfl⟩ | ⟨hr, rfl⟩ := exec_inversion h
  · have hbytes : ((List.range n.toNat).map fun r => memByte m (s.i.toNat + r)) =
        (List.range n.toNat).map fun r => memByte s.mem (s.i.toNat + r) :=
      List.map_congr_left fun r hrow => hm r (List.mem_range.mp hrow)
    rw [exec_drw_inRange (s := { s with mem := m }) hr, hbytes]
    rfl
  · exact exec_drw_outOfRange (s := { s with mem := m }) hr

/-- Settles O42: DRW alone reads memory. -/
theorem instructionsReadOnlyTheirSpriteBytes : Obligations.InstructionsReadOnlyTheirSpriteBytes := by
  intro i s t m hm h
  cases i with
  | drw x y n => exact exec_drw_with_mem (hm x y n rfl) h
  | _ => obtain rfl : t = _ := exec_inversion h; rfl

end Sys2Proof.Machine

/-! The proofs of the statements about the encoding (`30_encoding.md`): the two round trips, the fields, the opcode map, the
assembler and the disassembler, and the fault of the ten unhandled types. -/

namespace Sys2Proof

/-! ### Words and their two bytes (R52, R80) -/

/-- The bytes of a word, at the head of any list, decode to what the word decodes to and leave the rest. -/
theorem decode_bytes_append (w : Word) (rest : List Byte) : decode (w.bytes ++ rest) = .ok (decodeWord w, rest) := by
  change Except.ok (decodeWord (assembleWord (w.extractLsb' 8 8) (w.extractLsb' 0 8)), rest) = _
  rw [assembleWord_bytes]

theorem bytes_assembleWord (hi lo : Byte) : (assembleWord hi lo).bytes = [hi, lo] := by
  have hhi : (assembleWord hi lo).extractLsb' 8 8 = hi := BitVec.extractLsb'_append_eq_left
  have hlo : (assembleWord hi lo).extractLsb' 0 8 = lo := BitVec.extractLsb'_append_eq_right
  rw [Word.bytes, hhi, hlo]

/-- Settles O1: a word is assembled from its two bytes, and the fields of an instruction's word are its operands. -/
theorem decodeOfEncodeIsTheInstruction : Obligations.DecodeOfEncodeIsTheInstruction := by
  intro i rest
  refine ⟨decodeWord_encode i, ?_⟩
  rw [encodeBytes, decode_bytes_append, decodeWord_encode]

/-- Settles O2: two bytes decode to the instruction whose word they assemble to. -/
theorem encodeOfDecodeIsTheWord : Obligations.EncodeOfDecodeIsTheWord := by
  refine ⟨encode_decodeWord, fun hi lo => ⟨decodeWord (assembleWord hi lo), rfl, ?_⟩⟩
  rw [encodeBytes, encode_decodeWord, bytes_assembleWord]

/-! ### The fields (R82, R87) -/

/-- Settles O3: the two overlaps are facts about division and remainder. -/
theorem fieldsAreArithmeticOnTheWord : Obligations.FieldsAreArithmeticOnTheWord := by
  intro w
  have hw := w.isLt
  simp only [decodeFields, toNat_field]
  omega

/-- Settles O5: each is a closed fact about one word, which the decoder computes. -/
theorem documentWordsDecodeAsListed : Obligations.DocumentWordsDecodeAsListed := by
  unfold Obligations.DocumentWordsDecodeAsListed
  decide

/-! ### The opcode map (R88) -/

theorem opType_decodeWord (w : Word) : (decodeWord w).opType = w.extractLsb' 12 4 := selectInstr_opType (decodeFields w)

/-- The mask of every row keeps the type nibble and clears the twelve bits after it. -/
theorem and_typeMask (w : Word) : w &&& 0xF000#16 = w.extractLsb' 12 4 ++ 0x000#12 := by
  calc w &&& 0xF000#16
      = (w.extractLsb' 12 4 ++ w.extractLsb' 0 12) &&& (BitVec.allOnes 4 ++ 0x000#12) :=
        congrArg (· &&& 0xF000#16) (append_type_imm12 w).symm
    _ = w.extractLsb' 12 4 ++ 0x000#12 := by rw [BitVec.and_append, BitVec.and_allOnes, BitVec.and_zero]

/-- A masked word equals a row's match exactly if the word has the row's type. -/
theorem and_typeMask_eq_iff (w : Word) (t : Nibble) : w &&& 0xF000#16 = t ++ 0x000#12 ↔ w.extractLsb' 12 4 = t := by
  rw [and_typeMask]
  constructor
  · intro h
    rw [← (fields_imm12 (w.extractLsb' 12 4) 0x000#12).1, h, (fields_imm12 t 0x000#12).1]
  · rintro rfl
    rfl

/-- A masked word equals a row's match exactly if the word decodes to the instruction that the row's type selects from the
word's own fields. -/
theorem and_typeMask_eq_iff_decodeWord {w : Word} {i : Instr} (t : Nibble)
    (hi : selectInstr { decodeFields w with type := t } = i) :
    w &&& 0xF000#16 = t ++ 0x000#12 ↔ decodeWord w = i := by
  subst hi
  rw [and_typeMask_eq_iff]
  constructor
  · rintro rfl
    rfl
  · intro h
    rw [← opType_decodeWord, h, selectInstr_opType]

/-- Settles O4: the match of a row is its type nibble and twelve zeros. -/
theorem wordSelectsItsRowByMatchAndMask : Obligations.WordSelectsItsRowByMatchAndMask := by
  intro w
  have row {i : Instr} := and_typeMask_eq_iff_decodeWord (w := w) (i := i)
  exact ⟨row 0x0#4 (selectInstr_type0 ..), row 0x1#4 (selectInstr_type1 ..), row 0x2#4 (selectInstr_type2 ..),
    row 0x3#4 (selectInstr_type3 ..), row 0x4#4 (selectInstr_type4 ..), row 0x5#4 (selectInstr_type5 ..),
    row 0x6#4 (selectInstr_type6 ..), row 0x7#4 (selectInstr_type7 ..), row 0x8#4 (selectInstr_type8 ..),
    row 0x9#4 (selectInstr_type9 ..), row 0xA#4 (selectInstr_typeA ..), row 0xB#4 (selectInstr_typeB ..),
    row 0xC#4 (selectInstr_typeC ..), row 0xD#4 (selectInstr_typeD ..), row 0xE#4 (selectInstr_typeE ..),
    row 0xF#4 (selectInstr_typeF ..)⟩

/-! ### The assembler and the disassembler (R94) -/

/-- A line with an operand out of range is refused. -/
theorem Source.refused_of_not_wellFormed {l : Source} (h : l.wellFormed = false) :
    l.toInstr = none ∧ l.assemble = none := by
  have hwf : ¬ l.wellFormed = true := by simp [h]
  exact ⟨if_neg hwf, if_neg hwf⟩

theorem Source.assemble_db {b : Nat} (h : b < 256) : (Source.db b).assemble = some [.ofNat 8 b] :=
  if_pos (decide_eq_true h)

/-- A line without a comment stands for the word of the instruction whose line it is. -/
theorem Listing.word_of_toSource {i : Instr} {l : Source} (h : i.toSource = some l) :
    Listing.word { line := l, comment := none } = some (encode i) :=
  congrArg (Option.map encode) (Instr.toInstr_of_toSource h)

/-- A CLS word that `CLS` does not emit is printed with the word beside it. -/
theorem disassemble_cls_of_ne {low : Imm12} (h : low ≠ 0x0E0#12) :
    disassemble (.cls low) = some { line := .cls, comment := some (encode (.cls low)) } := by
  rw [disassemble, if_neg h]

/-- The disassembled line of an instruction of the core stands for the instruction's word. -/
theorem disassemble_word_of_handled {i : Instr} (h : i.handled = true) :
    ∃ l, disassemble i = some l ∧ l.word = some (encode i) := by
  cases i with
  | cls low =>
    by_cases hlow : low = 0x0E0#12
    · subst hlow
      exact ⟨_, rfl, rfl⟩
    · exact ⟨_, disassemble_cls_of_ne hlow, rfl⟩
  | jp | ldV | addV | ldI | drw => exact ⟨_, rfl, Listing.word_of_toSource rfl⟩
  | _ => cases h

/-- Settles O7: a line with its operands in range is the source line of the instruction that has those operands as its
fields, so the number of its word is that of the instruction's layout. -/
theorem assemblerEmitsTheEncodedWord : Obligations.AssemblerEmitsTheEncodedWord := by
  refine ⟨fun nnn h => ⟨.jp (.ofNatLT nnn h), Instr.toInstr_of_toSource rfl, toNat_encode_jp _⟩,
    fun x nn hx hnn => ⟨.ldV (.ofNatLT x hx) (.ofNatLT nn hnn), Instr.toInstr_of_toSource rfl, toNat_encode_ldV _ _⟩,
    fun x nn hx hnn => ⟨.addV (.ofNatLT x hx) (.ofNatLT nn hnn), Instr.toInstr_of_toSource rfl, toNat_encode_addV _ _⟩,
    fun nnn h => ⟨.ldI (.ofNatLT nnn h), Instr.toInstr_of_toSource rfl, toNat_encode_ldI _⟩,
    fun x y n hx hy hn => ⟨.drw (.ofNatLT x hx) (.ofNatLT y hy) (.ofNatLT n hn), Instr.toInstr_of_toSource rfl,
      toNat_encode_drw _ _ _⟩,
    ⟨.cls 0x0E0#12, rfl, rfl⟩,
    fun _ _ h => Source.assemble_of_toInstr h,
    fun _ h => Source.assemble_db h,
    fun _ h => Source.refused_of_not_wellFormed h,
    fun _ h => disassemble_word_of_handled h,
    fun low h => ⟨_, disassemble_cls_of_ne h, ?_⟩⟩
  have hcls : Source.text .cls ++ " ; " = "CLS ; " := by decide
  rw [Listing.text, hcls]

/-! ### The unhandled types (R90) -/

/-- The core has no instruction of exactly ten types. -/
theorem Instr.handled_eq_false_iff (i : Instr) : i.handled = false ↔
    i.opType ∈ [0x2#4, 0x3#4, 0x4#4, 0x5#4, 0x8#4, 0x9#4, 0xB#4, 0xC#4, 0xE#4, 0xF#4] := by
  cases i <;> simp [Instr.handled, Instr.opType]

end Sys2Proof

namespace Sys2Proof.Machine

theorem exec_of_not_handled {i : Instr} (h : i.handled = false) (s : State) :
    exec i s = .next (s.enterFaulted .unhandledInstruction (encode i)) := by
  cases i with
  | cls | jp | ldV | addV | ldI | drw => cases h
  | _ => rfl

/-- An instruction that the core does not have faults with its word and changes nothing else. -/
theorem exec_faultedFrom_of_not_handled {i : Instr} (h : i.handled = false) (s : State) :
    ∃ t, exec i s = .next t ∧ s.FaultedFrom t .unhandledInstruction (encode i) :=
  ⟨_, exec_of_not_handled h s, s.enterFaulted_faultedFrom _ _⟩

/-- Settles O36: the type of a word decides whether its instruction is handled. -/
theorem unhandledTypesFaultInPlace : Obligations.UnhandledTypesFaultInPlace := by
  refine ⟨rfl, fun s => ⟨fun w hw => ?_, fun low i hi => ?_⟩⟩
  · have hnot : (decodeWord w).handled = false := by rwa [Instr.handled_eq_false_iff, opType_decodeWord]
    have hfault := exec_faultedFrom_of_not_handled hnot s
    rwa [encode_decodeWord] at hfault
  · have hnot : ∀ j ∈ [Instr.illegal2 low, .illegal3 low, .illegal4 low, .illegal5 low, .illegal8 low, .illegal9 low,
        .illegalB low, .illegalC low, .illegalE low, .illegalF low], j.handled = false := by simp [Instr.handled]
    exact exec_faultedFrom_of_not_handled (hnot i hi) s

end Sys2Proof.Machine

/-! The proofs of the statements about the instruction cycle (`40_instruction_cycle.md`): the fetch, the outcomes of a step,
the invariants of R118, halted cores, the jump to self, and a word placed for the next step. -/

namespace Sys2Proof.Machine

/-! ### The step of a ready state (R110, R111) -/

theorem State.canFetch_eq_false_iff (s : State) : s.canFetch = false ↔ 4096 ≤ s.pc.toNat + 1 := by
  rw [← Bool.not_eq_true, s.canFetch_iff, Nat.not_lt]

/-- A ready state whose fetch is out of range faults in place (R111). -/
theorem State.Ready.step_eq_raiseFetch {s : State} (h : s.Ready) (hc : s.canFetch = false) :
    step s = .next (s.enterFaulted .fetchOutOfRange 0x0000#16) := by
  rw [h.step_eq, cycle, hc]
  rfl

/-- A ready state that can fetch executes the word it fetches (R110). -/
theorem State.Ready.step_eq_exec {s : State} {w : Word} (h : s.Ready) (hc : s.canFetch = true)
    (hw : s.fetchWord = some w) : step s = exec (decodeWord w) s := by
  rw [h.step_eq, cycle, if_pos hc, hw]

theorem lt_of_memRead {m : Mem} {a : Nat} {b : Byte} (h : memRead m a = some b) : a < 4096 := by
  by_contra hge
  rw [memRead_of_ge m (Nat.not_lt.mp hge)] at h
  cases h

theorem State.canFetch_of_memRead {s : State} {lo : Byte} (hlo : memRead s.mem (s.pc.toNat + 1) = some lo) :
    s.canFetch = true := s.canFetch_iff.2 (lt_of_memRead hlo)

/-- The fetched word is assembled from the bytes at PC and PC + 1, more significant first (R52, R111). -/
theorem State.fetchWord_of_memRead {s : State} {hi lo : Byte} (hhi : memRead s.mem s.pc.toNat = some hi)
    (hlo : memRead s.mem (s.pc.toNat + 1) = some lo) : s.fetchWord = some (assembleWord hi lo) := by
  rw [State.fetchWord, memRead2, hhi, hlo]

/-- Settles O8: the two bytes at PC decode to what their word decodes to. -/
theorem stepRunsTheDecodedInstruction : Obligations.StepRunsTheDecodedInstruction := by
  intro s hi lo i hready hhi hlo hdec _
  obtain rfl : decodeWord (assembleWord hi lo) = i := by
    injection hdec with hpair
    exact congrArg Prod.fst hpair
  exact hready.step_eq_exec (State.canFetch_of_memRead hlo) (State.fetchWord_of_memRead hhi hlo)

/-- Settles O9. -/
theorem fetchIsBigEndianOrFaults : Obligations.FetchIsBigEndianOrFaults := by
  intro s hready
  constructor
  · intro hpc
    have hc : s.canFetch = true := s.canFetch_iff.2 hpc
    have hw := State.fetchWord_of_canFetch hc
    exact ⟨_, _, _, memRead_of_lt s.mem (Nat.lt_of_succ_lt hpc), memRead_of_lt s.mem hpc, hw, assembleWord_toNat _ _,
      hready.step_eq_exec hc hw⟩
  · intro hpc
    exact ⟨_, hready.step_eq_raiseFetch (s.canFetch_eq_false_iff.2 hpc), s.enterFaulted_faultedFrom _ _⟩

/-! ### The outcomes of an instruction and of a step (R116, R117) -/

/-- An instruction answers a next state from every state: a draw checks its range before it reads (R51, R153). -/
theorem exec_total (i : Instr) (s : State) : ∃ t, exec i s = .next t := by
  cases i with
  | drw x y n =>
    cases hr : spriteInRange s.i n
    · exact ⟨_, exec_drw_outOfRange hr⟩
    · exact ⟨_, exec_drw_inRange hr⟩
  | _ => exact ⟨_, rfl⟩

/-- A step answers a next state from every state: the fetch checks its range before it reads (R51, R111). -/
theorem step_total (s : State) : ∃ t, step s = .next t := by
  cases hb : s.boundary with
  | some t => exact ⟨t, by rw [step, hb]⟩
  | none =>
    have hready : s.Ready := s.boundary_eq_none_iff.1 hb
    cases hc : s.canFetch
    · exact ⟨_, hready.step_eq_raiseFetch hc⟩
    · rw [hready.step_eq_exec hc (State.fetchWord_of_canFetch hc)]
      exact exec_total _ s

/-- An instruction leaves the run state, or enters FAULTED with a cause (R115). -/
theorem exec_runState {i : Instr} {s t : State} (h : exec i s = .next t) :
    t.runState = s.runState ∨ t.runState = .faulted ∧ t.faultCause ≠ .none := by
  obtain hkept | ⟨_, rfl⟩ | ⟨_, _, _, _, _, rfl⟩ := exec_completes_or_faults h
  · exact .inl hkept.runState
  · exact .inr ⟨rfl, nofun⟩
  · exact .inr ⟨rfl, nofun⟩

/-- Settles O10: of the ways a step can go, only the halt request and a cycle that faults change the run state. -/
theorem stepAlwaysAnswersNext : Obligations.StepAlwaysAnswersNext := by
  refine ⟨exec_total, fun s => ?_⟩
  obtain ⟨t, hstep⟩ := step_total s
  refine ⟨t, hstep, fun hrst => ?_⟩
  obtain ⟨hrst', _⟩ | ⟨_, _, rfl⟩ | ⟨_, hrun, _, hhalt, rfl⟩ | ⟨hready, _, rfl⟩ | ⟨hready, _, hexec⟩ :=
    step_inversion hstep
  · rw [hrst] at hrst'
    cases hrst'
  · exact .inl rfl
  · exact .inr (.inl ⟨hrun, hhalt, rfl⟩)
  · exact .inr (.inr ⟨hready.running, hready.haltReqLow, rfl, nofun⟩)
  · exact (exec_runState hexec).imp_right fun hfault => .inr ⟨hready.running, hready.haltReqLow, hfault⟩

/-! ### Halted cores (R116, R193) -/

/-- A run of a halted core without reset changes nothing but the input signals. -/
theorem runWith_of_halted {ps : List Inputs} {s : State} (hs : s.runState ≠ .running)
    (hps : ∀ p ∈ ps, p.rst = false) : ∃ p, runWith ps s = .next (s.withInputs p) := by
  induction ps generalizing s with
  | nil => exact ⟨s.inputs, rfl⟩
  | cons p ps ih =>
    obtain ⟨hp, hrest⟩ := List.forall_mem_cons.1 hps
    have hstep : stepWith p s = .next (s.withInputs p) := step_of_halted (s := s.withInputs p) hp hs
    rw [runWith, hstep]
    exact ih (s := s.withInputs p) hs hrest

/-- Settles O14. -/
theorem haltedCoreTakesNoStep : Obligations.HaltedCoreTakesNoStep := by
  intro ps s hs hps
  obtain ⟨p, hrun⟩ := runWith_of_halted hs hps
  exact ⟨_, hrun, rfl⟩

/-! ### The status registers (R36 to R38, R118 (f), R180) -/

/-- Status registers that name no fault, outside FAULTED, agree. -/
theorem State.StatusOk.of_noFault {s : State} (hrun : s.runState ≠ .faulted) (hcause : s.faultCause = .none)
    (hinfo : s.faultInfo = 0x0000#16) : s.StatusOk where
  quiet _ := ⟨hcause, hinfo⟩
  named h := absurd h hrun
  fetch h := nomatch hcause.symm.trans h
  unhandled h := nomatch hcause.symm.trans h
  sprite h := nomatch hcause.symm.trans h

theorem State.statusOk_enterFaulted_fetch {s : State} (hc : s.canFetch = false) :
    (s.enterFaulted .fetchOutOfRange 0x0000#16).StatusOk where
  quiet h := absurd rfl h
  named _ := nofun
  fetch _ := ⟨rfl, hc⟩
  unhandled := nofun
  sprite := nofun

theorem State.statusOk_enterFaulted_unhandled (s : State) {i : Instr} (hi : i.handled = false) :
    (s.enterFaulted .unhandledInstruction (encode i)).StatusOk where
  quiet h := absurd rfl h
  named _ := nofun
  fetch := nofun
  unhandled _ := (congrArg Instr.handled (decodeWord_encode i)).trans hi
  sprite := nofun

theorem State.statusOk_enterFaulted_sprite {s : State} {x y n : Nibble} (hr : spriteInRange s.i n = false) :
    (s.enterFaulted .spriteOutOfRange (encode (.drw x y n))).StatusOk where
  quiet h := absurd rfl h
  named _ := nofun
  fetch := nofun
  unhandled := nofun
  sprite _ := ⟨x, y, n, rfl, hr⟩

/-- In RUNNING the status registers name no fault, so an instruction leaves them that way or records its own. -/
theorem exec_statusOk {i : Instr} {s t : State} (hrun : s.runState = .running) (hs : s.StatusOk)
    (h : exec i s = .next t) : t.StatusOk := by
  obtain hkept | ⟨hi, rfl⟩ | ⟨x, y, n, rfl, hr, rfl⟩ := exec_completes_or_faults h
  · obtain ⟨hcause, hinfo⟩ := hs.quiet (by simp [hrun])
    exact .of_noFault (by simp [hkept.runState, hrun]) (hkept.faultCause.trans hcause) (hkept.faultInfo.trans hinfo)
  · exact s.statusOk_enterFaulted_unhandled hi
  · exact State.statusOk_enterFaulted_sprite hr

/-! ### The bounds of PC and I (R27, R31) -/

/-- An instruction at a PC that can be fetched from leaves PC at most 0x1000 (R27). -/
theorem exec_pc_le {i : Instr} {s t : State} (hc : s.canFetch = true) (h : exec i s = .next t) :
    t.pc.toNat ≤ 0x1000 := by
  have hpc := s.canFetch_iff.1 hc
  obtain ⟨nnn, _, hjump⟩ | ⟨hkept, _⟩ | ⟨hnext, _⟩ := exec_pc h
  · rw [hjump, zextImm_toNat]
    exact nnn.isLt.le
  · rw [hkept]
    omega
  · rw [hnext, toNat_pc_add_two hpc]
    omega

/-- An instruction keeps I at most 0x0FFF (R31). -/
theorem exec_i_le {i : Instr} {s t : State} (hs : s.i.toNat ≤ 0x0FFF) (h : exec i s = .next t) :
    t.i.toNat ≤ 0x0FFF := by
  by_cases he : t.i = s.i
  · rwa [he]
  · obtain ⟨nnn, _, hload⟩ := exec_i_of_ne h he
    rw [hload, zextImm_toNat]
    exact Nat.le_of_lt_succ nnn.isLt

/-! ### The invariant (R118) -/

/-- The values of R42 meet the invariant, over any canonical memory and under any inputs. -/
theorem State.inv_reset_with {m : Mem} (p : Inputs) (hm : memWf m = true) :
    State.Inv { State.reset with mem := m, inputs := p } where
  pcLe := by simp [State.reset]
  iLe := Nat.zero_le _
  stackEmpty := rfl
  memCanonical := hm
  statusOk := .of_noFault nofun rfl rfl

/-- Settles O20. -/
theorem resetMeetsTheInvariant : Obligations.ResetMeetsTheInvariant :=
  State.inv_reset_with (m := []) Inputs.run rfl

/-- A step of reset leaves the values of R42, and the memory that the loader's port leaves (R220, R230). -/
theorem State.applyReset_loaderStore (s : State) :
    s.applyReset.loaderStore = { State.reset with mem := s.loaderStore.mem, inputs := s.inputs } := by
  unfold State.loaderStore
  rw [State.applyReset_inputs]
  split <;> rfl

theorem State.memWf_loaderStore {s : State} (hm : memWf s.mem = true) : memWf s.loaderStore.mem = true := by
  rw [State.loaderStore_mem]
  split
  · exact memWf_memWrite _ _ hm
  · exact hm

theorem State.Inv.enterStopped {s : State} (h : s.Inv) (hrun : s.runState = .running) : s.enterStopped.Inv where
  pcLe := h.pcLe
  iLe := h.iLe
  stackEmpty := h.stackEmpty
  memCanonical := h.memCanonical
  statusOk :=
    have ⟨hcause, hinfo⟩ := h.statusOk.quiet (by simp [hrun])
    .of_noFault nofun hcause hinfo

theorem State.Inv.enterFaulted_fetch {s : State} (h : s.Inv) (hc : s.canFetch = false) :
    (s.enterFaulted .fetchOutOfRange 0x0000#16).Inv where
  pcLe := h.pcLe
  iLe := h.iLe
  stackEmpty := h.stackEmpty
  memCanonical := h.memCanonical
  statusOk := State.statusOk_enterFaulted_fetch hc

/-- An instruction that RUNNING can fetch keeps the invariant. -/
theorem exec_keeps_inv {i : Instr} {s t : State} (hrun : s.runState = .running) (hc : s.canFetch = true) (hs : s.Inv)
    (h : exec i s = .next t) : t.Inv where
  pcLe := exec_pc_le hc h
  iLe := exec_i_le hs.iLe h
  stackEmpty := (exec_stack h).trans hs.stackEmpty
  memCanonical := by rw [exec_mem h]; exact hs.memCanonical
  statusOk := exec_statusOk hrun hs.statusOk h

theorem step_keeps_inv {s t : State} (hs : s.Inv) (h : step s = .next t) : t.Inv := by
  obtain ⟨_, rfl⟩ | ⟨_, _, rfl⟩ | ⟨_, hrun, _, _, rfl⟩ | ⟨_, hc, rfl⟩ | ⟨hready, hc, hexec⟩ := step_inversion h
  · rw [s.applyReset_loaderStore]
    exact State.inv_reset_with s.inputs (State.memWf_loaderStore hs.memCanonical)
  · exact hs
  · exact hs.enterStopped hrun
  · exact hs.enterFaulted_fetch hc
  · exact exec_keeps_inv hready.running hc hs hexec

/-- An empty stack fits, whatever STACK_DEPTH is (R32, R33). -/
theorem State.Inv.stackFits {s : State} (h : s.Inv) : s.StackFits := by
  rw [State.StackFits, h.stackEmpty]
  exact Nat.zero_le _

/-- Settles O21. -/
theorem stepKeepsTheInvariant : Obligations.StepKeepsTheInvariant := fun _ _ hs h =>
  have ht := step_keeps_inv hs h
  ⟨ht, ht.stackFits⟩

/-- No clause of the invariant speaks of the input signals. -/
theorem State.Inv.withInputs {s : State} (h : s.Inv) (p : Inputs) : (s.withInputs p).Inv where
  pcLe := h.pcLe
  iLe := h.iLe
  stackEmpty := h.stackEmpty
  memCanonical := h.memCanonical
  statusOk := ⟨h.statusOk.quiet, h.statusOk.named, h.statusOk.fetch, h.statusOk.unhandled, h.statusOk.sprite⟩

theorem runWith_keeps_inv {ps : List Inputs} {s t : State} (hps : ∀ p ∈ ps, p.rst = false) (hs : s.Inv)
    (hrun : runWith ps s = .next t) : t.Inv :=
  runWith_induction State.Inv (fun _ p h => h.withInputs p) (fun _ _ h _ hstep => step_keeps_inv h hstep)
    ps s t hps hs hrun

/-- The boot state meets the invariant, whatever the ROM and the canonical memory under it (R229). -/
theorem inv_of_bootWith {mem0 : Mem} {rom : List Byte} {s : State} (hm : memWf mem0 = true)
    (hboot : bootWith mem0 rom = some s) : s.Inv := by
  unfold bootWith at hboot
  split at hboot
  · cases hboot
    exact State.inv_reset_with Inputs.run (memWf_memWriteBytes Config.loadBase rom hm)
  · cases hboot

/-- Settles O22. -/
theorem everyRunFromBootKeepsTheInvariant : Obligations.EveryRunFromBootKeepsTheInvariant :=
  fun _ _ _ _ _ hm hboot hps hrun => ⟨runWith_keeps_inv hps (inv_of_bootWith hm hboot) hrun, runWith_mem hps hrun⟩

/-! ### The jump to self (R119, R238 item 3) -/

/-- A PC that a fetch can come from is an address that a jump can name. -/
theorem zextImm_setWidth_pc {pc : Word} (h : pc.toNat + 1 < 4096) : zextImm (pc.setWidth 12) = pc := by
  apply BitVec.eq_of_toNat_eq
  rw [zextImm_toNat, BitVec.toNat_setWidth]
  omega

/-- The bytes that R119 puts at PC are the word `JP pc`. -/
theorem assembleWord_jump_to_self {pc : Word} (h : pc.toNat + 1 < 4096) :
    assembleWord (.ofNat 8 (0x10 + pc.toNat / 256)) (.ofNat 8 (pc.toNat % 256)) = encode (.jp (pc.setWidth 12)) := by
  apply BitVec.eq_of_toNat_eq
  rw [assembleWord_toNat, toNat_encode_jp, BitVec.toNat_ofNat, BitVec.toNat_ofNat, BitVec.toNat_setWidth]
  omega

theorem exec_jump_to_self {s : State} (h : s.pc.toNat + 1 < 4096) : exec (.jp (s.pc.setWidth 12)) s = .next s := by
  change Host.Outcome.next (s.setPc (zextImm (s.pc.setWidth 12))) = _
  rw [zextImm_setWidth_pc h]
  rfl

theorem runEnd_quiescent {s : State} (hrun : s.runState = .running) (hc : s.canFetch = true)
    (hw : s.fetchWord = some (encode (.jp (s.pc.setWidth 12)))) : runEnd s = some .quiescent := by
  have hq : s.quiescent = true := by simp [State.quiescent, hrun, hc, hw]
  simp only [runEnd, hrun, hq, if_true]

/-- Settles O43: the word at PC is `JP pc`, whose execution sets PC to what it holds. -/
theorem jumpToSelfIsAFixedPoint : Obligations.JumpToSelfIsAFixedPoint := by
  intro s hready hpc hhi hlo
  have hc : s.canFetch = true := s.canFetch_iff.2 hpc
  have hw : s.fetchWord = some (encode (.jp (s.pc.setWidth 12))) := by
    rw [State.fetchWord_of_memRead hhi hlo, assembleWord_jump_to_self hpc]
  have hstep : step s = .next s := by
    rw [hready.step_eq_exec hc hw, decodeWord_encode, exec_jump_to_self hpc]
  exact ⟨hstep, fun k => run_fixedPoint core k s hstep, runEnd_quiescent hready.running hc hw⟩

/-! ### A word placed for the next step -/

@[simp] theorem State.readyToFetch_mem (s : State) : s.readyToFetch.mem = s.mem := by
  unfold State.readyToFetch
  dsimp only
  split <;> split <;> rfl

theorem State.ready_readyToFetch (s : State) : s.readyToFetch.Ready where
  rstLow := rfl
  running := by
    by_cases hrun : s.runState = .running
    · simp only [State.readyToFetch, if_pos hrun]
      split <;> exact hrun
    · simp only [State.readyToFetch, if_neg hrun]
      split <;> rfl
  stepEnHigh := rfl
  haltReqLow := rfl

/-- Where PC is out of a fetch's reach, it is moved to RESET_PC. -/
theorem State.canFetch_readyToFetch (s : State) : s.readyToFetch.canFetch = true := by
  unfold State.readyToFetch
  dsimp only
  split
  · split
    · next hc => exact hc
    · rfl
  · split
    · next hc => exact hc
    · rfl

theorem State.Ready.storeAtPc {s : State} (h : s.Ready) (w : Word) : (s.storeAtPc w).Ready :=
  ⟨h.rstLow, h.running, h.stepEnHigh, h.haltReqLow⟩

/-- A word stored at PC is the word fetched there (R52, R111). -/
theorem State.fetchWord_storeAtPc {s : State} (w : Word) (hm : memWf s.mem = true) (hc : s.canFetch = true) :
    (s.storeAtPc w).fetchWord = some w := by
  have hpc := s.canFetch_iff.1 hc
  have hbyte := memByte_memWriteBytes s.pc.toNat w.bytes hm hpc
  have hhi : memByte (s.storeAtPc w).mem s.pc.toNat = w.extractLsb' 8 8 := by
    rw [State.storeAtPc_mem, hbyte]
    simp [Word.bytes]
  have hlo : memByte (s.storeAtPc w).mem (s.pc.toNat + 1) = w.extractLsb' 0 8 := by
    rw [State.storeAtPc_mem, hbyte]
    simp [Word.bytes]
  rw [State.fetchWord_of_canFetch (s := s.storeAtPc w) hc, State.storeAtPc_pc, hhi, hlo, assembleWord_bytes]

/-- The decoder reads a table word as it reads the word fetched from memory (R80). -/
theorem decodeTableWord_eq (nbits w : Nat) : decodeTableWord nbits w = some (decodeWord (tableWord nbits w)) := by
  have hdec := decode_bytes_append (tableWord nbits w) []
  rw [List.append_nil] at hdec
  rw [decodeTableWord, hdec]

/-- Settles O48. -/
theorem placedWordIsTheNextStep : Obligations.PlacedWordIsTheNextStep := by
  intro s w i hm hdec
  rw [decodeTableWord_eq] at hdec
  cases hdec
  have hmem : memWf s.readyToFetch.mem = true := by rwa [s.readyToFetch_mem]
  have hc := s.canFetch_readyToFetch
  exact (s.ready_readyToFetch.storeAtPc _).step_eq_exec hc (State.fetchWord_storeAtPc _ hmem hc)

end Sys2Proof.Machine

/-! The proof of the statement about clear screen (`41_clear_screen.md`). -/

namespace Sys2Proof.Machine

/-- Every instruction of the core but DRW completes, so it keeps what no completing instruction changes (R33, R39, R58,
R115). -/
theorem exec_kept_of_handled {i : Instr} {s t : State} (hi : i.handled = true) (hdrw : ∀ x y n, i ≠ .drw x y n)
    (h : exec i s = .next t) : s.Kept t := by
  obtain hkept | ⟨hnot, _⟩ | ⟨x, y, n, hdraw, _⟩ := exec_completes_or_faults h
  · exact hkept
  · rw [hi] at hnot
    cases hnot
  · exact absurd hdraw (hdrw x y n)

theorem exec_cls (low : Imm12) (s : State) :
    exec (.cls low) s = .next ((s.setFb allOff).setPc (s.pc + 2#16)) := rfl

/-- Settles O24: a word of type 0 is the encoding of a CLS, and CLS writes the framebuffer and PC alone. -/
theorem clsTurnsEveryPixelOff : Obligations.ClsTurnsEveryPixelOff := by
  refine ⟨Source.assemble_of_toInstr (l := .cls) rfl,
    fun low s => ⟨decodeWord_encode (.cls low), _, exec_cls low s, ?_, rfl, fun _ => rfl, rfl, ?_⟩⟩
  · exact pixel_allOff
  · exact exec_kept_of_handled (i := .cls low) rfl nofun (exec_cls low s)

end Sys2Proof.Machine

/-! The proof of the statement about the jump (`42_jump.md`). -/

namespace Sys2Proof.Machine

theorem exec_jp (nnn : Imm12) (s : State) : exec (.jp nnn) s = .next (s.setPc (zextImm nnn)) := rfl

/-- PC is no condition for an instruction cycle to start. -/
theorem State.Ready.setPc {s : State} (h : s.Ready) (w : Word) : (s.setPc w).Ready :=
  ⟨h.rstLow, h.running, h.stepEnHigh, h.haltReqLow⟩

/-- No instruction raises the fault of the fetch: one that enters FAULTED has another cause (R115). -/
theorem exec_faultCause_ne_fetch {i : Instr} {s t : State} (hrun : s.runState = .running) (h : exec i s = .next t)
    (hfault : t.runState = .faulted) : t.faultCause ≠ .fetchOutOfRange := by
  obtain hkept | ⟨_, rfl⟩ | ⟨_, _, _, _, _, rfl⟩ := exec_completes_or_faults h
  · rw [hkept.runState, hrun] at hfault
    cases hfault
  · exact nofun
  · exact nofun

/-- A ready state's step faults at the fetch exactly if the two bytes at PC are not both in memory (R111). -/
theorem State.Ready.faults_at_fetch_iff {s : State} (h : s.Ready) :
    (∃ u, step s = .next u ∧ s.FaultedFrom u .fetchOutOfRange 0x0000#16) ↔ s.canFetch = false := by
  constructor
  · rintro ⟨u, hstep, hfault⟩
    cases hc : s.canFetch with
    | false => rfl
    | true =>
      rw [h.step_eq_exec hc (State.fetchWord_of_canFetch hc)] at hstep
      exact absurd hfault.faultCause (exec_faultCause_ne_fetch h.running hstep hfault.runState)
  · intro hc
    exact ⟨_, h.step_eq_raiseFetch hc, s.enterFaulted_faultedFrom _ _⟩

/-- The one address of twelve bits whose second byte lies past the end of memory is 0xFFF (R136). -/
theorem State.canFetch_setPc_zextImm_eq_false_iff (s : State) (nnn : Imm12) :
    (s.setPc (zextImm nnn)).canFetch = false ↔ nnn = 0xFFF#12 := by
  rw [State.canFetch_eq_false_iff, State.setPc_pc, zextImm_toNat, ← BitVec.toNat_inj, BitVec.toNat_ofNat]
  have := nnn.isLt
  omega

/-- Settles O25: a word of type 1 is the encoding of a JP, JP writes PC alone, and a target can be fetched from unless it is
0xFFF. -/
theorem jpSetsPcExactly : Obligations.JpSetsPcExactly := by
  intro nnn s
  refine ⟨decodeWord_encode (.jp nnn), _, exec_jp nnn s, zextImm_toNat nnn, fun _ => rfl, rfl, fun _ _ => rfl, ?_, ?_⟩
  · exact exec_kept_of_handled (i := .jp nnn) rfl nofun (exec_jp nnn s)
  · intro hready
    rw [(hready.setPc _).faults_at_fetch_iff, s.canFetch_setPc_zextImm_eq_false_iff]

end Sys2Proof.Machine

/-! The proofs of the statements about the register-immediate instructions (`43_register_immediate.md`). -/

namespace Sys2Proof.Machine

theorem exec_ldV (x : Nibble) (nn : Byte) (s : State) :
    exec (.ldV x nn) s = .next ((s.setV x nn).setPc (s.pc + 2#16)) := rfl

theorem exec_addV (x : Nibble) (nn : Byte) (s : State) :
    exec (.addV x nn) s = .next ((s.setV x (addByte (s.getV x) nn)).setPc (s.pc + 2#16)) := rfl

theorem exec_ldI (nnn : Imm12) (s : State) :
    exec (.ldI nnn) s = .next ((s.setI (zextImm nnn)).setPc (s.pc + 2#16)) := rfl

/-- The byte adder wraps modulo 256 (R144, R146). -/
theorem addByte_toNat (a b : Byte) : (addByte a b).toNat = (a.toNat + b.toNat) % 256 := BitVec.toNat_add a b

/-- The write of a general register, with the commit of PC after it, is read back from that register. -/
theorem State.getV_setPc_setV_same (s : State) (x : Nibble) (b : Byte) (w : Word) :
    ((s.setV x b).setPc w).getV x = b := by
  rw [State.getV_setPc, State.getV_setV_same]

/-- The write of a general register, with the commit of PC after it, leaves every other general register (R21). -/
theorem State.getV_setPc_setV_other (s : State) {x j : Nibble} (b : Byte) (w : Word) (h : j ≠ x) :
    ((s.setV x b).setPc w).getV j = s.getV j := by
  rw [State.getV_setPc, s.getV_setV_other b h]

/-- Settles O26: a word of type 6 is the encoding of an LD Vx, and LD Vx writes V[x] and PC alone. -/
theorem ldVWritesOneRegister : Obligations.LdVWritesOneRegister := by
  intro x nn s
  refine ⟨decodeWord_encode (.ldV x nn), _, exec_ldV x nn s, ?_, fun j hj => ?_, rfl, rfl, fun _ _ => rfl, ?_⟩
  · exact s.getV_setPc_setV_same x nn _
  · exact s.getV_setPc_setV_other nn _ hj
  · exact exec_kept_of_handled (i := .ldV x nn) rfl nofun (exec_ldV x nn s)

/-- Settles O27: a word of type 7 is the encoding of an ADD Vx, and ADD Vx writes V[x] and PC alone: the carry is
recorded nowhere. -/
theorem addVWrapsAndSetsNoFlag : Obligations.AddVWrapsAndSetsNoFlag := by
  intro x nn s
  refine ⟨decodeWord_encode (.addV x nn), _, exec_addV x nn s, ?_, fun j hj => ?_, rfl, rfl, fun _ _ => rfl, ?_⟩
  · rw [State.getV_setPc_setV_same, addByte_toNat]
  · exact s.getV_setPc_setV_other _ _ hj
  · exact exec_kept_of_handled (i := .addV x nn) rfl nofun (exec_addV x nn s)

/-- Settles O28: a word of type 0xA is the encoding of an LD I, and LD I writes I and PC alone. -/
theorem ldIWritesTheIndexRegister : Obligations.LdIWritesTheIndexRegister := by
  intro nnn s
  refine ⟨decodeWord_encode (.ldI nnn), _, exec_ldI nnn s, zextImm_toNat nnn, rfl, fun _ => rfl, fun _ _ => rfl, ?_⟩
  exact exec_kept_of_handled (i := .ldI nnn) rfl nofun (exec_ldI nnn s)

end Sys2Proof.Machine

/-! The proofs of the statements about the draw instruction (`44_draw_sprite.md`). What a draw in range leaves is said once,
pixel by pixel and register by register, in the arithmetic of R159; the statements follow from that. -/

namespace Sys2Proof.Machine

/-! ### The state a draw in range leaves (R150) -/

/-- The sprite of a draw of `n` rows: row r is the byte at `I + r` (R152). -/
def State.spriteRows (s : State) (n : Nibble) : List Byte :=
  (List.range n.toNat).map fun r => memByte s.mem (s.i.toNat + r)

/-- The state that DRW Vx, Vy, N leaves when its sprite is in range (R150). -/
def State.afterDrw (s : State) (vx vy n : Nibble) : State := (s.drawn vx vy (s.spriteRows n)).setPc (s.pc + 2#16)

section
variable {vx vy n : Nibble} {s : State}

theorem exec_drw_of_le (h : s.i.toNat + n.toNat ≤ 4096) : exec (.drw vx vy n) s = .next (s.afterDrw vx vy n) :=
  exec_drw_inRange ((spriteInRange_iff s.i n).2 h)

/-- The word of a DRW is `0xDXYN` (R88). -/
theorem encode_drw (vx vy n : Nibble) :
    encode (.drw vx vy n) = .ofNat 16 (0xD000 + vx.toNat * 256 + vy.toNat * 16 + n.toNat) := by
  rw [← toNat_encode_drw, BitVec.ofNat_toNat, BitVec.setWidth_eq]

theorem exec_drw_of_gt (h : 4096 < s.i.toNat + n.toNat) :
    exec (.drw vx vy n) s = .next (s.enterFaulted .spriteOutOfRange (encode (.drw vx vy n))) := by
  refine exec_drw_outOfRange (Bool.eq_false_iff.2 fun hr => ?_)
  exact absurd ((spriteInRange_iff s.i n).1 hr) (Nat.not_le.2 h)

@[simp] theorem State.length_spriteRows : (s.spriteRows n).length = n.toNat := by simp [State.spriteRows]

theorem State.getD_spriteRows {r : Nat} (h : r < n.toNat) :
    (s.spriteRows n).getD r 0x00#8 = memByte s.mem (s.i.toNat + r) := by
  simp [State.spriteRows, h]

/-- The pixels the blit engine hits are those of R159's arithmetic. -/
theorem hit_spriteRows (y x : Nat) :
    hit (startColumn (s.getV vx)) (startRow (s.getV vy)) (s.spriteRows n) y x = drawHit s vx vy n y x := by
  simp only [hit, drawHit, effectiveHeight, effectiveWidth, Config.fbHeight, Config.fbWidth, Config.spriteWidth,
    startColumn_toNat, startRow_toNat, State.length_spriteRows, spriteBit]
  by_cases hrow : y - (s.getV vy).toNat % 32 < n.toNat
  · rw [State.getD_spriteRows hrow]
  · rw [decide_eq_false (by omega), Bool.false_and, Bool.false_and]

/-- A draw toggles the pixels it hits (R156, R159). -/
theorem State.pixel_afterDrw (y x : Nat) :
    pixel (s.afterDrw vx vy n).fb y x = (pixel s.fb y x ^^ drawHit s vx vy n y x) := by
  rw [← hit_spriteRows]
  exact pixel_blit _ _ _ _ y x

/-- The collision of a draw: a pixel it hits was on before it (R157). -/
def DrawCollides (s : State) (vx vy n : Nibble) : Prop := ∃ y x, drawHit s vx vy n y x = true ∧ pixel s.fb y x = true

theorem blit_collision_iff_drawCollides :
    (blit (startColumn (s.getV vx)) (startRow (s.getV vy)) (s.spriteRows n) s.fb).2 = true ↔ DrawCollides s vx vy n := by
  simp only [blit_collision, hit_spriteRows, DrawCollides]

theorem State.getV_vf_afterDrw : (s.afterDrw vx vy n).getV vf =
    collisionByte (blit (startColumn (s.getV vx)) (startRow (s.getV vy)) (s.spriteRows n) s.fb).2 := by
  rw [State.afterDrw, State.getV_setPc, State.drawn, State.getV_setCollision, if_pos rfl]

theorem collisionByte_eq_one_iff (c : Bool) : collisionByte c = 0x01#8 ↔ c = true := by cases c <;> decide

theorem collisionByte_eq_zero_iff (c : Bool) : collisionByte c = 0x00#8 ↔ ¬c = true := by cases c <;> decide

/-- VF after a draw is 1 exactly at a collision (R158). -/
theorem State.afterDrw_vf_eq_one_iff : (s.afterDrw vx vy n).getV vf = 0x01#8 ↔ DrawCollides s vx vy n := by
  rw [State.getV_vf_afterDrw, collisionByte_eq_one_iff, blit_collision_iff_drawCollides]

/-- VF after a draw is 0 exactly without a collision (R158). -/
theorem State.afterDrw_vf_eq_zero_iff : (s.afterDrw vx vy n).getV vf = 0x00#8 ↔ ¬DrawCollides s vx vy n := by
  rw [State.getV_vf_afterDrw, collisionByte_eq_zero_iff, blit_collision_iff_drawCollides]

theorem State.getV_afterDrw_of_ne_vf {j : Nibble} (h : j ≠ vf) : (s.afterDrw vx vy n).getV j = s.getV j :=
  s.getV_drawn_of_ne_vf vx vy _ h

/-- A draw writes the framebuffer, VF and PC alone (R150). -/
theorem State.kept_afterDrw : s.Kept (s.afterDrw vx vy n) := ⟨rfl, fun _ => rfl, rfl, rfl, rfl, rfl⟩

/-! ### The pixels a draw hits (R154, R159) -/

/-- Row r and column c of the clipped rectangle are hit where bit `7 - c` of the sprite's row r is 1 (R155). -/
theorem drawHit_add {r c : Nat} (hr : r < min (32 - (s.getV vy).toNat % 32) n.toNat)
    (hc : c < min (64 - (s.getV vx).toNat % 64) 8) :
    drawHit s vx vy n ((s.getV vy).toNat % 32 + r) ((s.getV vx).toNat % 64 + c) =
      (memByte s.mem (s.i.toNat + r)).getLsbD (7 - c) := by
  simp only [drawHit, Nat.add_sub_cancel_left]
  rw [decide_eq_true (by omega), Bool.true_and]

/-- A hit pixel lies in the clipped rectangle (R154). -/
theorem drawHit_eq_false_of_outside {y x : Nat}
    (h : ¬((s.getV vy).toNat % 32 ≤ y ∧ y < (s.getV vy).toNat % 32 + min (32 - (s.getV vy).toNat % 32) n.toNat ∧
      (s.getV vx).toNat % 64 ≤ x ∧ x < (s.getV vx).toNat % 64 + min (64 - (s.getV vx).toNat % 64) 8)) :
    drawHit s vx vy n y x = false := by
  simp only [drawHit, decide_eq_false h, Bool.false_and]

/-- A sprite of zero rows, or of none, hits nothing (R152). -/
theorem drawHit_eq_false_of_blank (hblank : ∀ r, r < n.toNat → memByte s.mem (s.i.toNat + r) = 0x00#8) (y x : Nat) :
    drawHit s vx vy n y x = false := by
  by_cases hrow : y - (s.getV vy).toNat % 32 < n.toNat
  · simp [drawHit, hblank _ hrow]
  · exact drawHit_eq_false_of_outside (by omega)

/-- What a draw hits depends on memory, on I and on the values of its coordinate registers. -/
theorem drawHit_congr {t : State} (hmem : t.mem = s.mem) (hi : t.i = s.i) (hx : t.getV vx = s.getV vx)
    (hy : t.getV vy = s.getV vy) (y x : Nat) : drawHit t vx vy n y x = drawHit s vx vy n y x := by
  simp only [drawHit, hmem, hi, hx, hy]

/-! ### Pixels turned off and on by a draw -/

/-- A draw turns off the pixels it hits that were on. -/
theorem State.turnedOff_iff (y x : Nat) : (pixel s.fb y x = true ∧ pixel (s.afterDrw vx vy n).fb y x = false) ↔
    (drawHit s vx vy n y x = true ∧ pixel s.fb y x = true) := by
  rw [State.pixel_afterDrw]
  cases pixel s.fb y x <;> simp

/-- A draw turns on the pixels it hits that were off. -/
theorem State.turnedOn_iff (y x : Nat) : (pixel s.fb y x = false ∧ pixel (s.afterDrw vx vy n).fb y x = true) ↔
    (drawHit s vx vy n y x = true ∧ pixel s.fb y x = false) := by
  rw [State.pixel_afterDrw]
  cases pixel s.fb y x <;> simp

theorem drawCollides_iff_turnedOff :
    DrawCollides s vx vy n ↔ ∃ y x, pixel s.fb y x = true ∧ pixel (s.afterDrw vx vy n).fb y x = false := by
  simp only [State.turnedOff_iff, DrawCollides]

/-! ### Two draws of one sprite at one place (R160) -/

/-- Between the two draws the coordinates are those before the first: VF is no coordinate, or it is restored. -/
theorem State.getV_between_draws {j : Nibble} {t : State}
    (h : (t = s.afterDrw vx vy n ∧ j ≠ vf) ∨ t = (s.afterDrw vx vy n).setV vf (s.getV vf)) : t.getV j = s.getV j := by
  obtain ⟨rfl, hj⟩ | rfl := h
  · exact State.getV_afterDrw_of_ne_vf hj
  · rw [State.getV_setV]
    split
    · next hj => rw [hj]
    · next hj => exact State.getV_afterDrw_of_ne_vf hj

/-- A second draw that hits what the first hit restores the screen (R160 (a)). -/
theorem State.afterDrw_fb_of_same_hits {t : State} (hfb : t.fb = (s.afterDrw vx vy n).fb)
    (hhit : ∀ y x, drawHit t vx vy n y x = drawHit s vx vy n y x) : (t.afterDrw vx vy n).fb = s.fb := by
  refine framebuffer_ext fun y x _ _ => ?_
  rw [State.pixel_afterDrw, hhit, hfb, State.pixel_afterDrw, Bool.xor_assoc, Bool.xor_self, Bool.xor_false]

/-- A second draw that hits what the first hit collides at the pixels that were off before the first (R160 (b)). -/
theorem drawCollides_of_same_hits {t : State} (hfb : t.fb = (s.afterDrw vx vy n).fb)
    (hhit : ∀ y x, drawHit t vx vy n y x = drawHit s vx vy n y x) :
    DrawCollides t vx vy n ↔ ∃ y x, drawHit s vx vy n y x = true ∧ pixel s.fb y x = false := by
  refine exists_congr fun y => exists_congr fun x => ?_
  rw [hhit, hfb, State.pixel_afterDrw]
  cases drawHit s vx vy n y x <;> simp

end

/-! ### The statements -/

/-- Settles O29. -/
theorem drwIsThePointwiseForm : Obligations.DrwIsThePointwiseForm := fun _ _ _ _ h =>
  ⟨_, exec_drw_of_le h, fun y x _ _ => State.pixel_afterDrw y x, State.afterDrw_vf_eq_one_iff.2,
    State.afterDrw_vf_eq_zero_iff.2, fun _ => State.getV_afterDrw_of_ne_vf, rfl, rfl, State.kept_afterDrw⟩

/-- Settles O30. -/
theorem drwChecksAllRowsBeforeDrawing : Obligations.DrwChecksAllRowsBeforeDrawing := by
  refine ⟨rfl, fun vx vy n s => ⟨fun hgt => ⟨_, exec_drw_of_gt hgt, ?_⟩, fun hle => ⟨_, exec_drw_of_le hle, ?_⟩⟩⟩
  · rw [encode_drw]
    exact s.enterFaulted_faultedFrom _ _
  · exact ⟨State.kept_afterDrw.runState, State.kept_afterDrw.faultCause, State.kept_afterDrw.faultInfo⟩

/-- Settles O31. -/
theorem drwTogglesOnlyTheClippedRectangle : Obligations.DrwTogglesOnlyTheClippedRectangle := by
  intro vx vy n s h startx starty w height
  refine ⟨by omega, by omega, by omega, by omega, by omega, _, exec_drw_of_le h, fun r c hr hc => ?_, fun y x hout => ?_⟩
  · rw [State.pixel_afterDrw, drawHit_add hr hc]
    split <;> next hbit => simp [hbit]
  · rw [State.pixel_afterDrw, drawHit_eq_false_of_outside hout, Bool.xor_false]

/-- Settles O32: the pixels that went from on to off are the hit pixels that were on. -/
theorem collisionMeansAnOnPixelTurnedOff : Obligations.CollisionMeansAnOnPixelTurnedOff := by
  intro vx vy n s h
  refine ⟨_, exec_drw_of_le h, ?_, ?_⟩
  · exact State.afterDrw_vf_eq_one_iff.trans drawCollides_iff_turnedOff
  · exact State.afterDrw_vf_eq_zero_iff.trans (not_congr drawCollides_iff_turnedOff)

/-- Settles O33: the state a draw leaves is a function of the two coordinate values. -/
theorem drwReadsCoordinatesBeforeWritingVf : Obligations.DrwReadsCoordinatesBeforeWritingVf := by
  intro vx vy vx' vy' n s h hx hy
  have hafter : s.afterDrw vx' vy' n = s.afterDrw vx vy n := by
    simp only [State.afterDrw, State.drawn, hx, hy]
  exact ⟨_, exec_drw_of_le h, hafter ▸ exec_drw_of_le h⟩

/-- Settles O34: a blank sprite hits nothing. -/
theorem blankSpriteDrawsNothingAndClearsVf : Obligations.BlankSpriteDrawsNothingAndClearsVf := by
  intro vx vy n s h hblank
  have hhit : ∀ y x, drawHit s vx vy n y x = false := drawHit_eq_false_of_blank hblank
  refine ⟨_, exec_drw_of_le h, fun y x => ?_, State.afterDrw_vf_eq_zero_iff.2 ?_⟩
  · rw [State.pixel_afterDrw, hhit, Bool.xor_false]
  · rintro ⟨y, x, htarget, _⟩
    rw [hhit] at htarget
    cases htarget

/-- Settles O35. -/
theorem drawingTwiceRestoresTheScreen : Obligations.DrawingTwiceRestoresTheScreen := by
  intro vx vy n s h
  refine ⟨_, exec_drw_of_le h, fun hoff => State.afterDrw_vf_eq_zero_iff.2 ?_, fun t ht => ?_⟩
  · rintro ⟨y, x, _, hon⟩
    rw [hoff] at hon
    cases hon
  · have hx : t.getV vx = s.getV vx := State.getV_between_draws (ht.imp_left fun ⟨ht, hx, _⟩ => ⟨ht, hx⟩)
    have hy : t.getV vy = s.getV vy := State.getV_between_draws (ht.imp_left fun ⟨ht, _, hy⟩ => ⟨ht, hy⟩)
    obtain ⟨hfb, hmem, hi⟩ : t.fb = (s.afterDrw vx vy n).fb ∧ t.mem = s.mem ∧ t.i = s.i := by
      obtain ⟨rfl, _⟩ | rfl := ht <;> exact ⟨rfl, rfl, rfl⟩
    have hhit := drawHit_congr (n := n) hmem hi hx hy
    have hcoll := State.afterDrw_vf_eq_one_iff.trans (drawCollides_of_same_hits hfb hhit)
    refine ⟨_, exec_drw_of_le (hi ▸ h), State.afterDrw_fb_of_same_hits hfb hhit, hcoll.trans ?_, hcoll⟩
    exact exists_congr fun y => exists_congr fun x => (State.turnedOn_iff y x).symm

/-- Settles O50: the count agrees at every position. -/
theorem onPixelCountChangesByTheTargetedPixels : Obligations.OnPixelCountChangesByTheTargetedPixels := by
  intro vx vy n s h
  refine ⟨_, exec_drw_of_le h, countPixels_add_eq_add fun y x => ?_⟩
  rw [State.pixel_afterDrw]
  cases pixel s.fb y x <;> cases drawHit s vx vy n y x <;> rfl

end Sys2Proof.Machine

/-! The proofs of the statements about the exceptions (`60_exceptions.md`): the three faults of R180, fault entry, the halt
request, and the order of the events of one step. What a fetched word does is said once, in the arithmetic of R180. -/

namespace Sys2Proof

/-- The word is of a type that the core does not have (R90). -/
def Word.Unhandled (w : Word) : Prop :=
  (decodeFields w).type ∈ [0x2#4, 0x3#4, 0x4#4, 0x5#4, 0x8#4, 0x9#4, 0xB#4, 0xC#4, 0xE#4, 0xF#4]

theorem handled_decodeWord_eq_false_iff (w : Word) : (decodeWord w).handled = false ↔ Word.Unhandled w := by
  rw [Instr.handled_eq_false_iff, opType_decodeWord]
  rfl

/-- A word of type 0xD is a DRW of its own fields (R88). -/
theorem decodeWord_of_typeD {w : Word} (h : (decodeFields w).type = 0xD#4) :
    decodeWord w = .drw (decodeFields w).x (decodeFields w).y (decodeFields w).n :=
  (and_typeMask_eq_iff_decodeWord 0xD#4 (selectInstr_typeD ..)).1 ((and_typeMask_eq_iff w 0xD#4).2 h)

end Sys2Proof

namespace Sys2Proof.Machine

/-! ### What a fetched word does (R180) -/

/-- The word is a DRW whose rows do not all fit into memory (R153). -/
def State.SpriteOutOfRange (s : State) (w : Word) : Prop :=
  (decodeFields w).type = 0xD#4 ∧ 4096 < s.i.toNat + (decodeFields w).n.toNat

section
variable {s t : State} {w : Word}

/-- The word of a DRW that fails its range check is one of R180's sprite faults. -/
theorem State.spriteOutOfRange_of_decodeWord {x y n : Nibble} (hw : decodeWord w = .drw x y n)
    (hr : spriteInRange s.i n = false) : s.SpriteOutOfRange w := by
  have htype : (decodeFields w).type = 0xD#4 := by
    have hop := opType_decodeWord w
    rw [hw] at hop
    exact hop.symm
  rw [decodeWord_of_typeD htype] at hw
  injection hw with _ _ hn
  refine ⟨htype, Nat.lt_of_not_le fun hle => ?_⟩
  rw [hn, ← spriteInRange_iff, hr] at hle
  cases hle

theorem exec_decodeWord_of_unhandled (h : Word.Unhandled w) :
    exec (decodeWord w) s = .next (s.enterFaulted .unhandledInstruction w) := by
  rw [exec_of_not_handled ((handled_decodeWord_eq_false_iff w).2 h), encode_decodeWord]

theorem exec_decodeWord_of_spriteOutOfRange (h : s.SpriteOutOfRange w) :
    exec (decodeWord w) s = .next (s.enterFaulted .spriteOutOfRange w) := by
  obtain ⟨htype, hgt⟩ := h
  have hdraw := decodeWord_of_typeD htype
  rw [hdraw, exec_drw_of_gt hgt, ← hdraw, encode_decodeWord]

/-- A word that meets neither of the two conditions completes (R115). -/
theorem exec_decodeWord_kept (hu : ¬Word.Unhandled w) (hs : ¬s.SpriteOutOfRange w)
    (h : exec (decodeWord w) s = .next t) : s.Kept t := by
  obtain hkept | ⟨hnot, _⟩ | ⟨x, y, n, hdraw, hr, _⟩ := exec_completes_or_faults h
  · exact hkept
  · exact absurd ((handled_decodeWord_eq_false_iff w).1 hnot) hu
  · exact absurd (State.spriteOutOfRange_of_decodeWord hdraw hr) hs

/-! ### Steps (R187, R192, R196) -/

/-- A step has one answer. -/
theorem eq_of_step_eq {u : State} (ht : step s = .next t) (hu : step s = .next u) : t = u :=
  Host.Outcome.next.inj (ht.symm.trans hu)

/-- The halt request is taken before the fetch (R196). -/
theorem step_of_haltReq (hrst : s.inputs.rst = false) (hrun : s.runState = .running) (hen : s.inputs.stepEn = true)
    (hhalt : s.inputs.haltReq = true) : step s = .next s.enterStopped := by
  simp [step, State.boundary, hrst, hrun, hen, hhalt]

/-- An instruction takes RUNNING to FAULTED only by entering it with a cause (R115, R187). -/
theorem exec_eq_enterFaulted {i : Instr} (hrun : s.runState = .running) (h : exec i s = .next t)
    (hfault : t.runState = .faulted) : ∃ cause info, cause ≠ .none ∧ t = s.enterFaulted cause info := by
  obtain hkept | ⟨_, ht⟩ | ⟨_, _, _, _, _, ht⟩ := exec_completes_or_faults h
  · rw [hkept.runState, hrun] at hfault
    cases hfault
  · exact ⟨.unhandledInstruction, _, nofun, ht⟩
  · exact ⟨.spriteOutOfRange, _, nofun, ht⟩

/-- A ready state's step takes it to FAULTED only by entering it with a cause (R187). -/
theorem State.Ready.step_eq_enterFaulted (hready : s.Ready) (h : step s = .next t) (hfault : t.runState = .faulted) :
    ∃ cause info, cause ≠ .none ∧ t = s.enterFaulted cause info := by
  cases hc : s.canFetch with
  | false => exact ⟨.fetchOutOfRange, _, nofun, eq_of_step_eq h (hready.step_eq_raiseFetch hc)⟩
  | true =>
    rw [hready.step_eq_exec hc (State.fetchWord_of_canFetch hc)] at h
    exact exec_eq_enterFaulted hready.running h hfault

end

/-! ### The statements -/

/-- Settles O11: a fetch out of range has no word, and a fetched word is of one of the three kinds of R180. -/
theorem stepFaultsExactlyOnTheThreeConditions : Obligations.StepFaultsExactlyOnTheThreeConditions := by
  refine ⟨rfl, rfl, rfl, rfl, fun s hready => ?_⟩
  obtain ⟨t, hstep⟩ := step_total s
  refine ⟨t, hstep, fun hpc => ?_, fun hi lo hhi hlo => ?_⟩
  · rw [eq_of_step_eq hstep (hready.step_eq_raiseFetch (s.canFetch_eq_false_iff.2 hpc))]
    exact s.enterFaulted_faultedFrom _ _
  · rw [hready.step_eq_exec (State.canFetch_of_memRead hlo) (State.fetchWord_of_memRead hhi hlo)] at hstep
    refine ⟨fun hu => ?_, fun hs => ?_, fun hu hs => ?_⟩
    · rw [exec_decodeWord_of_unhandled hu] at hstep
      cases hstep
      exact s.enterFaulted_faultedFrom _ _
    · rw [exec_decodeWord_of_spriteOutOfRange hs] at hstep
      cases hstep
      exact s.enterFaulted_faultedFrom _ _
    · exact (exec_decodeWord_kept hu hs hstep).runState.trans hready.running

/-- Settles O12: the state left is one of fault entry, and FAULTED is halted. -/
theorem faultEntryHaltsInPlace : Obligations.FaultEntryHaltsInPlace := by
  intro s t hready hstep hfault
  obtain ⟨cause, info, hcause, rfl⟩ := hready.step_eq_enterFaulted hstep hfault
  exact ⟨⟨cause, info, hcause, s.enterFaulted_faultedFrom cause info⟩, fun ps => haltedCoreTakesNoStep ps _ nofun⟩

/-- Settles O13: STOPPED is halted. -/
theorem haltRequestStopsBeforeTheFetch : Obligations.HaltRequestStopsBeforeTheFetch := fun _ hrst hrun hen hhalt =>
  ⟨_, step_of_haltReq hrst hrun hen hhalt, rfl, fun ps => haltedCoreTakesNoStep ps _ nofun⟩

/-- Settles O15: an event decides the step once those before it in the list are ruled out. -/
theorem eventsOfOneStepHaveAnOrder : Obligations.EventsOfOneStepHaveAnOrder := by
  intro s hrun hen
  obtain ⟨t, hstep⟩ := step_total s
  have hready (hrst : ¬s.inputs.rst = true) (hhalt : ¬s.inputs.haltReq = true) : s.Ready :=
    ⟨Bool.eq_false_iff.2 hrst, hrun, hen, Bool.eq_false_iff.2 hhalt⟩
  have hexec (h : s.Ready) (hpc : ¬4096 ≤ s.pc.toNat + 1) :
      exec (decodeWord (assembleWord (memByte s.mem s.pc.toNat) (memByte s.mem (s.pc.toNat + 1)))) s = .next t := by
    have hc : s.canFetch = true := s.canFetch_iff.2 (Nat.lt_of_not_le hpc)
    rwa [h.step_eq_exec hc (State.fetchWord_of_canFetch hc)] at hstep
  refine ⟨t, hstep, ?_⟩
  dsimp only
  split_ifs with hrst hhalt hpc hu hs
  · rw [eq_of_step_eq hstep (step_of_rst hrst)]
    simp
  · rw [eq_of_step_eq hstep (step_of_haltReq (Bool.eq_false_iff.2 hrst) hrun hen hhalt)]
    rfl
  · rw [eq_of_step_eq hstep ((hready hrst hhalt).step_eq_raiseFetch (s.canFetch_eq_false_iff.2 hpc))]
    rfl
  · cases (exec_decodeWord_of_unhandled hu).symm.trans (hexec (hready hrst hhalt) hpc)
    rfl
  · cases (exec_decodeWord_of_spriteOutOfRange hs).symm.trans (hexec (hready hrst hhalt) hpc)
    rfl
  · have hkept := exec_decodeWord_kept hu hs (hexec (hready hrst hhalt) hpc)
    rw [hkept.runState, hkept.faultCause, hrun]

end Sys2Proof.Machine

/-! The proofs of the statements about reset and hazards (`70_reset_and_hazards.md`): reset, the loader's port, boot, pacing and
the moves of the host. -/

namespace Sys2Proof.Machine

/-! ### Reading memory after a store -/

section
variable {m : Mem} {a : Nat}

theorem memRead_memWrite (b : Byte) (hm : memWf m = true) (ha : a < 4096) (a' : Nat) :
    memRead (memWrite m a b) a' = if a' = a then some b else memRead m a' := by
  by_cases ha' : a' < 4096
  · rw [memRead_of_lt _ ha', memRead_of_lt _ ha', memByte_memWrite b hm ha]
    split <;> rfl
  · have hge : 4096 ≤ a' := Nat.not_lt.1 ha'
    rw [memRead_of_ge _ hge, memRead_of_ge _ hge, if_neg (by omega)]

/-- Byte `k` of consecutive stored bytes is read back at the `k`-th address. -/
theorem memRead_memWriteBytes_inside {bs : List Byte} {k : Nat} (hm : memWf m = true) (h : a + bs.length ≤ 4096)
    (hk : k < bs.length) : memRead (memWriteBytes m a bs) (a + k) = bs[k]? := by
  rw [memRead_of_lt _ (by omega), memByte_memWriteBytes a bs hm h, if_pos (by omega), Nat.add_sub_cancel_left,
    List.getD_eq_getElem _ _ hk, List.getElem?_eq_getElem hk]

theorem memRead_memWriteBytes_outside {bs : List Byte} {a' : Nat} (hm : memWf m = true) (h : a + bs.length ≤ 4096)
    (hout : ¬(a ≤ a' ∧ a' < a + bs.length)) : memRead (memWriteBytes m a bs) a' = memRead m a' := by
  by_cases ha' : a' < 4096
  · rw [memRead_of_lt _ ha', memRead_of_lt _ ha', memByte_memWriteBytes a bs hm h, if_neg hout]
  · have hge : 4096 ≤ a' := Nat.not_lt.1 ha'
    rw [memRead_of_ge _ hge, memRead_of_ge _ hge]

end

/-! ### Reset and the loader's port (R220, R221, R230) -/

/-- A step under reset leaves the values of R42, and the memory that the loader's port leaves (R220, R230). -/
theorem step_of_rst_eq_reset {s : State} (h : s.inputs.rst = true) :
    step s = .next { State.reset with mem := s.loaderStore.mem, inputs := s.inputs } := by
  rw [step_of_rst h, s.applyReset_loaderStore]

/-- Settles O16: without reset, a core that is not RUNNING keeps its run state. -/
theorem resetRestoresEveryRegister : Obligations.ResetRestoresEveryRegister := by
  refine ⟨fun s hrst => ⟨_, step_of_rst_eq_reset hrst, State.getV_reset, rfl, rfl, rfl, pixel_allOff, rfl, rfl, rfl⟩,
    fun s t hstep hs ht => ?_⟩
  by_contra hrst
  rw [step_of_halted (Bool.eq_false_iff.2 hrst) hs] at hstep
  cases hstep
  exact hs ht

theorem State.loaderStore_mem_of_ldWe_low {s : State} (h : s.inputs.ldWe = false) : s.loaderStore.mem = s.mem := by
  rw [State.loaderStore_mem, h]
  rfl

/-- The loader's port stores its byte at its address, and no other (R230). -/
theorem State.memRead_loaderStore {s : State} (hwe : s.inputs.ldWe = true) (hm : memWf s.mem = true) (a : Nat) :
    memRead s.loaderStore.mem a = if a = s.inputs.ldAddr.toNat then some s.inputs.ldData else memRead s.mem a := by
  rw [State.loaderStore_mem, if_pos hwe, memRead_memWrite _ hm s.inputs.ldAddr.isLt]

/-- Settles O18: what the port stores is all that a step of reset does to memory. -/
theorem loaderPortWritesOnlyUnderReset : Obligations.LoaderPortWritesOnlyUnderReset := by
  intro s t hstep
  refine ⟨fun hrst a => by rw [step_mem hrst hstep], fun hrst hwe a => ?_, fun hrst hwe hm => ?_⟩
  · rw [eq_of_step_eq hstep (step_of_rst_eq_reset hrst), State.loaderStore_mem_of_ldWe_low hwe]
  · rw [eq_of_step_eq hstep (step_of_rst_eq_reset hrst)]
    exact ⟨(State.memRead_loaderStore hwe hm _).trans (if_pos rfl),
      fun a ha => (State.memRead_loaderStore hwe hm a).trans (if_neg ha)⟩

/-! ### Boot (R229, R231) -/

/-- One store of the boot: the reset values, and the byte at its address. -/
theorem stepWith_loadInputs {a : Nat} (b : Byte) (s : State) (ha : a < 4096) :
    stepWith (loadInputs a b) s = .next { State.reset with mem := memWrite s.mem a b, inputs := loadInputs a b } := by
  have haddr : (loadInputs a b).ldAddr.toNat = a := by
    rw [loadInputs, BitVec.toNat_ofNat]
    exact Nat.mod_eq_of_lt ha
  have hmem : (s.withInputs (loadInputs a b)).loaderStore.mem = memWrite s.mem a b := by
    rw [State.loaderStore_mem, State.withInputs_inputs, haddr]
    rfl
  rw [stepWith, step_of_rst_eq_reset rfl, hmem, State.withInputs_inputs]

/-- The stores of consecutive bytes, from a state of reset, leave one. -/
theorem runWith_loadAllInputs (bs : List Byte) (a : Nat) (m : Mem) (p : Inputs) (h : a + bs.length ≤ 4096) :
    ∃ q, runWith (loadAllInputs a bs) { State.reset with mem := m, inputs := p } =
      .next { State.reset with mem := memWriteBytes m a bs, inputs := q } := by
  induction bs generalizing a m p with
  | nil => exact ⟨p, rfl⟩
  | cons b bs ih =>
    rw [List.length_cons] at h
    rw [loadAllInputs, runWith, stepWith_loadInputs b _ (by omega)]
    exact ih (a + 1) (memWrite m a b) (loadInputs a b) (by omega)

/-- The boot order leaves the reset values over memory with the ROM at LOAD_BASE. -/
theorem runWith_bootInputs (s : State) {rom : List Byte} (h : rom.length ≤ 3584) :
    ∃ q, runWith (bootInputs rom) s =
      .next { State.reset with mem := memWriteBytes s.mem Config.loadBase rom, inputs := q } := by
  have hreset : stepWith { Inputs.run with rst := true } s =
      .next { State.reset with mem := s.mem, inputs := { Inputs.run with rst := true } } := step_of_rst_eq_reset rfl
  rw [bootInputs, runWith, hreset]
  exact runWith_loadAllInputs rom Config.loadBase s.mem _ (by simp only [Config.loadBase]; omega)

/-- Settles O19: the run of the boot writes the ROM byte by byte over the reset values. -/
theorem bootLoadsTheRomVerbatim : Obligations.BootLoadsTheRomVerbatim := by
  refine fun s rom hm => ⟨fun hlen => ?_, fun hlong => if_neg (Nat.not_le.2 hlong)⟩
  have hfits : Config.loadBase + rom.length ≤ 4096 := by simp only [Config.loadBase]; omega
  obtain ⟨q, hrun⟩ := runWith_bootInputs s hlen
  exact ⟨_, hrun, if_pos hlen, fun k hk => memRead_memWriteBytes_inside hm hfits hk,
    fun a hout => memRead_memWriteBytes_outside hm hfits hout, rfl⟩

/-! ### Pacing (R237) -/

/-- While `step_en` is low the core waits (R43, R239). -/
theorem step_of_stepEn_low {s : State} (hrst : s.inputs.rst = false) (hen : s.inputs.stepEn = false) :
    step s = .next s := by
  simp [step, State.boundary, hrst, hen]

/-- A run samples its own inputs: those its first state holds show only where the run is empty. -/
theorem runWith_of_runWith_withInputs {ps : List Inputs} {p : Inputs} {s u : State}
    (h : runWith ps (s.withInputs p) = .next u) : ∃ v, runWith ps s = .next v ∧ v.withInputs u.inputs = u := by
  cases ps with
  | nil => cases h; exact ⟨s, rfl, rfl⟩
  | cons => exact ⟨u, h, rfl⟩

/-- Settles O44, by induction on the sequence: a step held back leaves a state that differs in its inputs alone, and a step
that is not held back is taken in both runs. -/
theorem pacingChangesNothing : Obligations.PacingChangesNothing := by
  intro ps
  induction ps with
  | nil => exact fun s _ => ⟨s, s, rfl, rfl, rfl⟩
  | cons p ps ih =>
    intro s hps
    obtain ⟨hrst, hrest⟩ := List.forall_mem_cons.1 hps
    cases hen : p.stepEn with
    | false =>
      have hwait : stepWith p s = .next (s.withInputs p) := step_of_stepEn_low (s := s.withInputs p) hrst hen
      obtain ⟨t, u, ht, hu, htu⟩ := ih (s.withInputs p) hrest
      obtain ⟨v, hv, hvu⟩ := runWith_of_runWith_withInputs hu
      refine ⟨t, v, by rw [runWith, hwait]; exact ht, by rwa [List.filter_cons_of_neg (by simp [hen])], ?_⟩
      calc v.withInputs t.inputs
          = (v.withInputs u.inputs).withInputs t.inputs := rfl
        _ = t := by rw [hvu, htu]
    | true =>
      obtain ⟨r, hr⟩ : ∃ r, stepWith p s = .next r := step_total _
      rw [List.filter_cons_of_pos hen, runWith, runWith, hr]
      exact ih r hrest

/-! ### The moves of the host (R239) -/

/-- Settles O47: a move is a setting of the inputs, and each of its levels is the one it drives. -/
theorem hostMovesReachOnlyTheInputs : Obligations.HostMovesReachOnlyTheInputs := fun _ =>
  ⟨fun _ => rfl, rfl, fun _ _ => rfl, rfl, fun _ => rfl, rfl, rfl, rfl⟩

/-- Settles O49: each move's levels meet the condition of one of the step's cases. -/
theorem hostMovesHaveTheEffectsOfTheHostTable : Obligations.HostMovesHaveTheEffectsOfTheHostTable := by
  intro s
  refine ⟨step_of_rst_eq_reset rfl, fun addr data hrst hm => ?_, fun addr data hrst => ?_,
    fun hrun hen => ⟨rfl, hrun, hen, rfl⟩, fun hrst => step_of_stepEn_low hrst rfl,
    fun hrst hrun hen => step_of_haltReq hrst hrun hen rfl, rfl, rfl⟩
  · obtain ⟨t, hstep⟩ := step_total ((HostMove.load addr data).apply s)
    obtain ⟨_, _, hport⟩ := loaderPortWritesOnlyUnderReset _ t hstep
    exact ⟨t, hstep, hport hrst rfl hm⟩
  · obtain ⟨t, hstep⟩ := step_total ((HostMove.load addr data).apply s)
    exact ⟨t, hstep, step_mem (s := (HostMove.load addr data).apply s) hrst hstep⟩

end Sys2Proof.Machine
